-- ==== Sys2Proof/Config.lean ====
section
/-! DEFINITION. The parameters an implementation fixes (spec/00_scope.md R6). The spec says the model takes them as
arguments: State carries them in a field that no step writes, so a statement about every state is about every value. -/

namespace Sys2Proof

/-- `INIT_EXTENT_MODE` (R6, R201; decision D13): what `EXTENT` is after INIT. -/
inductive ExtentMode where
  | rounded
  | zero
  deriving DecidableEq, Repr

/-- The parameters of R6. `capBytes` is `CAP_BYTES`, at most 2^29 - 1 by its type; R6's lower bound 1 is `Params.legal`. -/
structure Params where
  capBytes : Fin (2 ^ 29)
  hasTyped : Bool
  initExtentMode : ExtentMode
  deriving DecidableEq, Repr

/-- R6: 1 ≤ `CAP_BYTES` (the upper bound is in the type). -/
def Params.legal (p : Params) : Prop := 1 ≤ p.capBytes.val

/-- The reference configuration of R6. -/
def Params.reference : Params :=
  { capBytes := ⟨4096, by decide⟩, hasTyped := true, initExtentMode := .rounded }

end Sys2Proof
end

