-- ==== Sys2Proof/Word.lean ====
section
/-! DEFINITION. The word types of the block (spec/00_scope.md R6, R8, R9). -/

namespace Sys2Proof

/-- A byte of storage, and the raw sub-bit operand `HDR.SUB` (R6: `SUBW` = 8). -/
abbrev Byte := BitVec 8

/-- `HDR`, `A`, `B`, an absolute bit offset, `EXTENT`, `RVAL` (R6: `OW` = `LENW` = 32). -/
abbrev Word := BitVec 32

/-- A byte index, the width of `CUR_BYTE` (R6: `AW` = 29). -/
abbrev ByteIndex := BitVec 29

/-- A reduced sub-bit index, the width of `CUR_SUB` (R6: `SW` = 3). -/
abbrev SubIndex := BitVec 3

/-- A bit-string, most significant symbol first (R9). -/
abbrev BitString := List Bool

end Sys2Proof
end

