-- ==== Sys2Proof/Syntax.lean ====
section
/-! DEFINITION. The commands: what the host puts on the wires (Command) and what a command word means (Instr),
one constructor of Instr per row of spec/opcode_table.json (spec/30_encoding.md R61, R75). -/

namespace Sys2Proof

/-- The pattern port, sampled with a command (R60, R67): `PLEN` and `PDATA`. -/
structure Pattern where
  plen  : BitVec 7
  pdata : BitVec 64
  deriving DecidableEq, Repr

/-- One transfer on the command port with the pattern port (R60, R61). -/
structure Command where
  hdr : Word
  a   : Word
  b   : Word
  pat : Pattern
  deriving DecidableEq, Repr

/-- `HDR.SRC` (R66): 0, 1, and the two values that stand for a source that is neither a bit-string nor a buffer. -/
inductive SourceTag where
  | rawBitPattern
  | bufferHandle
  | neither2
  | neither3
  deriving DecidableEq, Repr

/-- `ENDIAN` and `HDR.E` (R26, R61). -/
inductive Endian where
  | big
  | little
  deriving DecidableEq, Repr

/-- A decoded command. Operands that a row does not use are ignored (R63), so they are not here. An optional length
is `none` when `HL` = 0 and `some B` when `HL` = 1; an optional position is the same with `HP` and `A` (R61).
`sub` is the raw 8-bit `HDR.SUB`; `byte` is the whole of `A`, whose top three bits the pair forms check (R65). -/
inductive Instr where
  | init (e : Endian) (n : Word)
  | getoff
  | setabs (off : Word)
  | setpair (byte : Word) (sub : Byte)
  | mvstart
  | mvend
  | advbyte
  | write (len : Option Word) (src : SourceTag) (pat : Pattern)
  | writeatAbs (pos : Word) (len : Option Word) (src : SourceTag) (pat : Pattern)
  | writeatPair (byte : Word) (sub : Byte) (len : Option Word) (src : SourceTag) (pat : Pattern)
  | writerange (start stop : Word) (src : SourceTag) (pat : Pattern)
  | read
  | readfrom (pos : Word)
  | readn (pos len : Word)
  | rdu8 (pos : Option Word)
  | rdu16 (pos : Option Word)
  | rdu32 (pos : Option Word)
  deriving DecidableEq, Repr

end Sys2Proof
end

