-- ==== Sys2Proof/WellFormed.lean ====
section
/-! DEFINITION. Which commands exist in a configuration (spec/30_encoding.md R75, R77). Every operand field of Instr has
exactly the width of its wire, so the one thing left to check is whether the row exists. -/

namespace Sys2Proof

/-- R75: RDU8, RDU16 and RDU32 exist only when `HAS_TYPED` is true; every other row always exists. -/
def Instr.wf (p : Params) : Instr → Bool
  | .init _ _ => true
  | .getoff => true
  | .setabs _ => true
  | .setpair _ _ => true
  | .mvstart => true
  | .mvend => true
  | .advbyte => true
  | .write _ _ _ => true
  | .writeatAbs _ _ _ _ => true
  | .writeatPair _ _ _ _ _ => true
  | .writerange _ _ _ _ => true
  | .read => true
  | .readfrom _ => true
  | .readn _ _ => true
  | .rdu8 _ => p.hasTyped
  | .rdu16 _ => p.hasTyped
  | .rdu32 _ => p.hasTyped

end Sys2Proof
end

