-- ==== Sys2Proof/Decode.lean ====
section
/-! DEFINITION. The decoder and the encoder, both from the opcode map of spec/30_encoding.md R75 and the header fields of R61. -/

namespace Sys2Proof

/-- The seventeen rows of R75, by name. -/
inductive Opcode where
  | init | getoff | setabs | setpair | mvstart | mvend | advbyte
  | write | writeatAbs | writeatPair | writerange
  | read | readfrom | readn
  | rdu8 | rdu16 | rdu32
  deriving DecidableEq, Repr

/-- A row of R75: a header `h` selects it when `h & mask == pattern` (the table's column `match`). -/
structure Row where
  op      : Opcode
  mask    : Word
  pattern : Word
  deriving DecidableEq, Repr

/-- Why a header is no command (R77); all three are `IllegalCommand` on the wires. -/
inductive Illegal where
  /-- an `OP` byte that no row has -/
  | undefinedOpcode
  /-- a reserved bit set, or a field the row does not use not zero (R62) -/
  | strayBits
  /-- RDU8, RDU16 or RDU32 when `HAS_TYPED` is false -/
  | typedReadsAbsent
  deriving DecidableEq, Repr

/-- The opcode map of R75, in its order. -/
def opcodeTable : List Row :=
  [⟨.init, 0xFFFFEFFF, 0x00000001⟩,
   ⟨.getoff, 0xFFFFFFFF, 0x00000010⟩,
   ⟨.setabs, 0xFFFFFFFF, 0x00000011⟩,
   ⟨.setpair, 0xFF00FFFF, 0x00000012⟩,
   ⟨.mvstart, 0xFFFFFFFF, 0x00000013⟩,
   ⟨.mvend, 0xFFFFFFFF, 0x00000014⟩,
   ⟨.advbyte, 0xFFFFFFFF, 0x00000015⟩] ++
  [⟨.write, 0xFFFFF2FF, 0x00000020⟩,
   ⟨.writeatAbs, 0xFFFFF2FF, 0x00000021⟩,
   ⟨.writeatPair, 0xFF00F2FF, 0x00000022⟩,
   ⟨.writerange, 0xFFFFF3FF, 0x00000023⟩] ++
  [⟨.read, 0xFFFFFFFF, 0x00000030⟩,
   ⟨.readfrom, 0xFFFFFFFF, 0x00000031⟩,
   ⟨.readn, 0xFFFFFFFF, 0x00000032⟩] ++
  [⟨.rdu8, 0xFFFFFDFF, 0x00000040⟩,
   ⟨.rdu16, 0xFFFFFDFF, 0x00000041⟩,
   ⟨.rdu32, 0xFFFFFDFF, 0x00000042⟩]

/-- R75's selection rule for one row. -/
def Row.selects (r : Row) (h : Word) : Bool := h &&& r.mask == r.pattern

/-- The rows that exist only under `HAS_TYPED` (R75). -/
def Opcode.isTyped : Opcode → Bool
  | .rdu8 => true
  | .rdu16 => true
  | .rdu32 => true
  | _ => false

/-- `HDR[7:0]`, the field `OP` (R61). -/
def hdrOp (h : Word) : Byte := h.extractLsb' 0 8
/-- `HDR[8]`, the field `HL`. -/
def hdrHl (h : Word) : Bool := h.getLsbD 8
/-- `HDR[9]`, the field `HP`. -/
def hdrHp (h : Word) : Bool := h.getLsbD 9
/-- `HDR[11:10]`, the field `SRC`. -/
def hdrSrcBits (h : Word) : BitVec 2 := h.extractLsb' 10 2
/-- `HDR[12]`, the field `E`. -/
def hdrEBit (h : Word) : Bool := h.getLsbD 12
/-- `HDR[23:16]`, the field `SUB`. -/
def hdrSub (h : Word) : Byte := h.extractLsb' 16 8

/-- R66: the values of `SRC`. -/
def SourceTag.ofBits (v : BitVec 2) : SourceTag :=
  if v = 0 then .rawBitPattern
  else if v = 1 then .bufferHandle
  else if v = 2 then .neither2
  else .neither3

/-- R66, the other way. -/
def SourceTag.toBits : SourceTag → BitVec 2
  | .rawBitPattern => 0
  | .bufferHandle => 1
  | .neither2 => 2
  | .neither3 => 3

/-- R26, R61: `E` = 0 is big-endian, 1 little-endian. -/
def Endian.ofBit : Bool → Endian
  | false => .big
  | true => .little

/-- R26, the other way. -/
def Endian.toBit : Endian → Bool
  | .big => false
  | .little => true

/-- R61: `HL` says whether `B` carries a length (R68). -/
def optionalLength (c : Command) : Option Word := if hdrHl c.hdr then some c.b else none

/-- R61: `HP` says whether `A` carries a position (R186). -/
def optionalPosition (c : Command) : Option Word := if hdrHp c.hdr then some c.a else none

/-- R76's first step: the row that fits the header, or the reason there is none (R77). -/
def rowOf (p : Params) (h : Word) : Except Illegal Opcode :=
  match opcodeTable.find? (fun r => r.selects h) with
  | some r => if r.op.isTyped && !p.hasTyped then .error .typedReadsAbsent else .ok r.op
  | none =>
    if opcodeTable.any (fun r => r.pattern.extractLsb' 0 8 == hdrOp h) then .error .strayBits
    else .error .undefinedOpcode

/-- The operands of a selected row (R61, R64 to R69). -/
def instrOf (op : Opcode) (c : Command) : Instr :=
  match op with
  | .init => .init (Endian.ofBit (hdrEBit c.hdr)) c.a
  | .getoff => .getoff
  | .setabs => .setabs c.a
  | .setpair => .setpair c.a (hdrSub c.hdr)
  | .mvstart => .mvstart
  | .mvend => .mvend
  | .advbyte => .advbyte
  | .write => .write (optionalLength c) (SourceTag.ofBits (hdrSrcBits c.hdr)) c.pat
  | .writeatAbs => .writeatAbs c.a (optionalLength c) (SourceTag.ofBits (hdrSrcBits c.hdr)) c.pat
  | .writeatPair =>
    .writeatPair c.a (hdrSub c.hdr) (optionalLength c) (SourceTag.ofBits (hdrSrcBits c.hdr)) c.pat
  | .writerange => .writerange c.a c.b (SourceTag.ofBits (hdrSrcBits c.hdr)) c.pat
  | .read => .read
  | .readfrom => .readfrom c.a
  | .readn => .readn c.a c.b
  | .rdu8 => .rdu8 (optionalPosition c)
  | .rdu16 => .rdu16 (optionalPosition c)
  | .rdu32 => .rdu32 (optionalPosition c)

/-- The decoder: total on every command, an instruction or a named reason (R75, R76, R77). -/
def decode (p : Params) (c : Command) : Except Illegal Instr :=
  match rowOf p c.hdr with
  | .ok op => .ok (instrOf op c)
  | .error e => .error e

/-- The header of R61 from its fields, as R80 writes it. -/
def packHdr (op : Byte) (hl hp : Bool) (src : BitVec 2) (e : Bool) (sub : Byte) : Word :=
  op.setWidth 32
    ||| (BitVec.ofBool hl).setWidth 32 <<< 8
    ||| (BitVec.ofBool hp).setWidth 32 <<< 9
    ||| src.setWidth 32 <<< 10
    ||| (BitVec.ofBool e).setWidth 32 <<< 12
    ||| sub.setWidth 32 <<< 16

/-- The header word of an instruction (R80). -/
def encodeHdr : Instr → Word
  | .init e _ => packHdr 0x01 false false 0 e.toBit 0
  | .getoff => packHdr 0x10 false false 0 false 0
  | .setabs _ => packHdr 0x11 false false 0 false 0
  | .setpair _ sub => packHdr 0x12 false false 0 false sub
  | .mvstart => packHdr 0x13 false false 0 false 0
  | .mvend => packHdr 0x14 false false 0 false 0
  | .advbyte => packHdr 0x15 false false 0 false 0
  | .write len src _ => packHdr 0x20 len.isSome false src.toBits false 0
  | .writeatAbs _ len src _ => packHdr 0x21 len.isSome false src.toBits false 0
  | .writeatPair _ sub len src _ => packHdr 0x22 len.isSome false src.toBits false sub
  | .writerange _ _ src _ => packHdr 0x23 false false src.toBits false 0
  | .read => packHdr 0x30 false false 0 false 0
  | .readfrom _ => packHdr 0x31 false false 0 false 0
  | .readn _ _ => packHdr 0x32 false false 0 false 0
  | .rdu8 pos => packHdr 0x40 false pos.isSome 0 false 0
  | .rdu16 pos => packHdr 0x41 false pos.isSome 0 false 0
  | .rdu32 pos => packHdr 0x42 false pos.isSome 0 false 0

/-- What an instruction puts on `A`; an operand it does not use is sent as 0 (ignored, R63). -/
def encodeA : Instr → Word
  | .init _ n => n
  | .getoff => 0
  | .setabs off => off
  | .setpair byte _ => byte
  | .mvstart => 0
  | .mvend => 0
  | .advbyte => 0
  | .write _ _ _ => 0
  | .writeatAbs pos _ _ _ => pos
  | .writeatPair byte _ _ _ _ => byte
  | .writerange start _ _ _ => start
  | .read => 0
  | .readfrom pos => pos
  | .readn pos _ => pos
  | .rdu8 pos => pos.getD 0
  | .rdu16 pos => pos.getD 0
  | .rdu32 pos => pos.getD 0

/-- What an instruction puts on `B`. -/
def encodeB : Instr → Word
  | .init _ _ => 0
  | .getoff => 0
  | .setabs _ => 0
  | .setpair _ _ => 0
  | .mvstart => 0
  | .mvend => 0
  | .advbyte => 0
  | .write len _ _ => len.getD 0
  | .writeatAbs _ len _ _ => len.getD 0
  | .writeatPair _ _ len _ _ => len.getD 0
  | .writerange _ stop _ _ => stop
  | .read => 0
  | .readfrom _ => 0
  | .readn _ len => len
  | .rdu8 _ => 0
  | .rdu16 _ => 0
  | .rdu32 _ => 0

/-- What an instruction puts on the pattern port; only the four write commands use it (R60). -/
def encodePat : Instr → Pattern
  | .init _ _ => ⟨0, 0⟩
  | .getoff => ⟨0, 0⟩
  | .setabs _ => ⟨0, 0⟩
  | .setpair _ _ => ⟨0, 0⟩
  | .mvstart => ⟨0, 0⟩
  | .mvend => ⟨0, 0⟩
  | .advbyte => ⟨0, 0⟩
  | .write _ _ pat => pat
  | .writeatAbs _ _ _ pat => pat
  | .writeatPair _ _ _ _ pat => pat
  | .writerange _ _ _ pat => pat
  | .read => ⟨0, 0⟩
  | .readfrom _ => ⟨0, 0⟩
  | .readn _ _ => ⟨0, 0⟩
  | .rdu8 _ => ⟨0, 0⟩
  | .rdu16 _ => ⟨0, 0⟩
  | .rdu32 _ => ⟨0, 0⟩

/-- The words of an instruction. -/
def encode (i : Instr) : Command := ⟨encodeHdr i, encodeA i, encodeB i, encodePat i⟩

/-- A command from one number. DESIGN CHOICE (log entry 7): the spec numbers bits inside each word only (R8, R61); here
`HDR` is bits 31..0, `A` 63..32, `B` 95..64, `PLEN` 102..96 and `PDATA` 166..103. -/
def Command.ofBits (w : Nat) : Command :=
  { hdr := BitVec.ofNat 32 w
    a := BitVec.ofNat 32 (w >>> 32)
    b := BitVec.ofNat 32 (w >>> 64)
    pat := { plen := BitVec.ofNat 7 (w >>> 96), pdata := BitVec.ofNat 64 (w >>> 103) } }

/-- The command whose low `nbits` bits are those of `w`, every bit above them 0. -/
def Command.ofTableBits (nbits w : Nat) : Command := Command.ofBits (w % 2 ^ nbits)

/-- The instruction the decoder reads from the bits `w`, in the reference configuration. -/
def decodeTableWord (nbits w : Nat) : Option Instr :=
  (decode Params.reference (Command.ofTableBits nbits w)).toOption

end Sys2Proof
end

