-- ==== Sys2Proof/Machine/State.lean ====
section
/-! DEFINITION. The state of the block as plain data (spec/10_state.md), what it exchanges with the host
(spec/30_encoding.md R60, R70, R72), and the state after reset (R36). -/

namespace Sys2Proof.Machine

/-- `storage` (R27): (byte index, byte) pairs, indexes strictly rising, no pair holding the 0x00 that an unlisted byte
reads as (R36: every byte is 0x00 after reset). -/
abbrev Memory := List Host.Cell

/-- One beat of the read-data port (R60, R72). -/
structure Beat where
  cbLen  : BitVec 4
  cbBits : Byte
  cbLast : Bool
  deriving DecidableEq, Repr

/-- The one response of a command (R70) with its read-data beats (R72). -/
structure Response where
  status : BitVec 4
  rval   : Word
  beats  : List Beat
  deriving DecidableEq, Repr

/-- What the host can do to the block between two steps: present a command (R60) or assert `RST` (R240). -/
inductive Input where
  | command (c : Command)
  | rst
  deriving DecidableEq, Repr

/-- The six faults of the spec (R210). They are reported in a response and change nothing (R212, R213), so a command
that ends in one answers a NEXT state. -/
inductive FaultCode where
  | typeMismatch
  | insufficientData
  | illegalCommand
  | illegalOperand
  | pointerOverflow
  | capacityExceeded
  deriving DecidableEq, Repr

/-- The state. The first six fields are all the state the spec gives the block (R15). The last three are the model's own:
`params`, the parameters of R6, which no step writes (log entry 3); `inputs`, what the host still presents, oldest first
(log entry 1); `responses`, what the block has delivered, oldest first (log entry 2). -/
structure State where
  /-- `CUR_BYTE` (R20) -/
  curByte   : ByteIndex
  /-- `CUR_SUB` (R20, R22) -/
  curSub    : SubIndex
  /-- `EXTENT` (R25) -/
  extent    : Word
  /-- `LEN_BYTES` (R28) -/
  lenBytes  : BitVec 30
  /-- `ENDIAN` (R26) -/
  endian    : Endian
  /-- `storage` (R27) -/
  storage   : Memory
  params    : Params
  inputs    : List Input
  responses : List Response
  deriving DecidableEq, Repr

/-- Where a run stops outside the spec's own behaviour. -/
inductive Fault where
  /-- Raised by READ, READFROM, READN and the typed reads when the range to read goes past the last byte that exists
  (R12, R27). Safe: only states with `EXTENT` above `CAP_BITS` meet it, and R25 says there are none. -/
  | noSuchByte (index : Nat)
  deriving DecidableEq, Repr

/-- Why a step has no meaning. -/
inductive Refusal where
  /-- An arm of exec without a meaning. Raised by no arm: every row of the opcode table has its meaning. Safe. -/
  | notModelled (mnemonic : String)
  deriving DecidableEq, Repr

/-- The state after reset (R36, R240), in the reference configuration of R6, with nothing presented by the host yet. -/
def State.reset : State :=
  { curByte := 0, curSub := 0, extent := 0, lenBytes := 0, endian := .big, storage := [],
    params := Params.reference, inputs := [], responses := [] }

end Sys2Proof.Machine
end

