-- ==== Sys2Proof/Machine/Operands.lean ====
section
/-! DEFINITION. The pure functions every command is defined through: bit-strings (spec/00_scope.md R9), the converter and
the chunk arithmetic (spec/40_pointer.md R100 to R106), and the operand forms (spec/30_encoding.md R64 to R68,
spec/41_writer.md R131, R132). Arithmetic is over Nat and exact (R7, R108). -/

namespace Sys2Proof.Machine

/-- `val(S)`, the unsigned number a bit-string denotes (R9). -/
def val (S : BitString) : Nat := S.foldl (fun n x => 2 * n + x.toNat) 0

/-- `bits_n(v)`, the n-symbol bit-string of v mod 2^n (R9). -/
def bitsOf (n v : Nat) : BitString := (List.range n).map (fun i => v.testBit (n - 1 - i))

/-- `split(o)` (R100). -/
def split (o : Nat) : Nat × Nat := (o / 8, o % 8)

/-- `join(b, s)` (R101). -/
def join (b s : Nat) : Nat := 8 * b + s

/-- `normsub(r)` (R103): the raw sub-bit operand reduced modulo 8; the quotient is dropped. -/
def normsub (r : Nat) : Nat := r % 8

/-- `chunk(s, rem)` (R104). -/
def chunk (s rem : Nat) : Nat := min (8 - s) rem

/-- `step(b, s, n)` of the pointer arithmetic (R105). -/
def stepPair (b s n : Nat) : Nat × Nat := if s + n > 7 then (b + 1, 0) else (b, s + n)

/-- `mask(s, n)` (R106): ones at the sub-bit indexes s to s + n - 1. -/
def mask (s n : Nat) : Byte := BitVec.ofNat 8 ((2 ^ n - 1) <<< (8 - s - n))

/-- `merge(old, s, n, v)` (R106). -/
def merge (old : Byte) (s n v : Nat) : Byte := (old &&& ~~~(mask s n)) ||| BitVec.ofNat 8 (v <<< (8 - s - n))

/-- `extract(byte, s, n)` (R106), as a number below 2^n. -/
def extract (byte : Byte) (s n : Nat) : Nat := (byte.toNat >>> (8 - s - n)) &&& (2 ^ n - 1)

/-- `ceil8(n)` (R7). -/
def ceil8 (n : Nat) : Nat := (n + 7) / 8

/-- The bit-string `S` on the pattern port (R67): `S[i] = PDATA[PLEN - 1 - i]`. -/
def symbolsOf (p : Pattern) : BitString :=
  (List.range p.plen.toNat).map (fun i => p.pdata.getLsbD (p.plen.toNat - 1 - i))

/-- R135, R217: the source is neither a bit-string nor a buffer, or the pattern is no bit-string. -/
def sourceBad (src : SourceTag) (p : Pattern) : Bool :=
  (match src with
   | .rawBitPattern => false
   | .bufferHandle => false
   | .neither2 => true
   | .neither3 => true) || decide (64 < p.plen.toNat)

/-- The resolved length of a write (R131): `PLEN` when no length is given, else the absolute value of the signed one. -/
def resolveLength (len : Option Word) (p : Pattern) : Nat :=
  match len with
  | none => p.plen.toNat
  | some b => b.toInt.natAbs

/-- R132: `S` right-aligned in `L` symbols, its leading symbols dropped or zeros put before it. -/
def rightAlign (L : Nat) (S : BitString) : BitString :=
  if L ≤ S.length then S.drop (S.length - L) else List.replicate (L - S.length) false ++ S

/-- The byte index of a pair form, `A[28:0]` (R65). -/
def pairByte (a : Word) : Nat := (a.extractLsb' 0 29).toNat

/-- R65: `A[31:29]` is not 0, so the byte index does not fit. -/
def pairByteBad (a : Word) : Bool := a.extractLsb' 29 3 != 0

/-- `8 × CAP_BYTES` (R6). -/
def capBits (p : Params) : Nat := 8 * p.capBytes.val

end Sys2Proof.Machine
end

