-- ==== Sys2Proof/Machine/Flags.lean ====
section
/-! DEFINITION. The block's only flag, `ENDIAN` (spec/10_state.md R26: no condition codes, and no command sets a flag as a
side effect), and the read-only status outputs (R31). -/

namespace Sys2Proof.Machine

/-- `ENDIAN` written; only INIT does so (R26, R200). -/
def setEndian (e : Endian) (s : State) : State := { s with endian := e }

/-- `CUR_OFF` = `join(CUR_BYTE, CUR_SUB)` (R21). -/
def curOff (s : State) : Nat := join s.curByte.toNat s.curSub.toNat

/-- `ST_BYTE` (R31). -/
def stByte (s : State) : ByteIndex := s.curByte
/-- `ST_SUB` (R31). -/
def stSub (s : State) : SubIndex := s.curSub
/-- `ST_OFF` (R31), 32 bits. -/
def stOff (s : State) : Word := BitVec.ofNat 32 (curOff s)
/-- `ST_EXTENT` (R31). -/
def stExtent (s : State) : Word := s.extent
/-- `ST_LENBYTES` (R31). -/
def stLenBytes (s : State) : BitVec 30 := s.lenBytes
/-- `ST_ENDIAN` (R31): 0 big, 1 little (R26). -/
def stEndian (s : State) : BitVec 1 :=
  match s.endian with
  | .big => 0
  | .little => 1

end Sys2Proof.Machine
end

