-- ==== Sys2Proof/Machine/Memory.lean ====
section
/-! DEFINITION. One byte of `storage` read and written, in canonical form (spec/10_state.md R27, R33, spec/20_memory.md R48). -/

namespace Sys2Proof.Machine

/-- What a byte that nothing has written since INIT or reset reads as (R36, R33). -/
def unlistedByte : Byte := 0

/-- The byte at an index. -/
def Memory.read : Memory → Nat → Byte
  | [], _ => unlistedByte
  | c :: m, i => if c.1 = i then c.2 else Memory.read m i

/-- The memory with one byte replaced, canonical if it was. -/
def Memory.write : Memory → Nat → Byte → Memory
  | [], i, v => if v = unlistedByte then [] else [(i, v)]
  | c :: m, i, v =>
    if i < c.1 then (if v = unlistedByte then c :: m else (i, v) :: c :: m)
    else if c.1 = i then (if v = unlistedByte then m else (i, v) :: m)
    else c :: Memory.write m i v

/-- The canonical form: indexes strictly rising, no cell that reads as an unlisted byte does. -/
def Memory.wf : Memory → Bool
  | [] => true
  | c :: m => c.2 != unlistedByte && m.all (fun d => decide (c.1 < d.1)) && Memory.wf m

end Sys2Proof.Machine
end

