-- ==== Sys2Proof/Machine/Ops.lean ====
section
/-! DEFINITION. The shared operations over registers, storage and ports: the primitives of spec/00_scope.md R12, the fault
entry of spec/60_exceptions.md R212 to R214, the writer core (spec/41_writer.md R133), the reader core
(spec/42_reader.md R151), reset (spec/70_reset_and_hazards.md R240) and the input port (spec/30_encoding.md R60). -/

namespace Sys2Proof.Machine

/-- What a meaning answers. -/
abbrev Result := Host.Outcome State Fault Refusal

/-- `(CUR_BYTE, CUR_SUB) <- (b, s)` (R11). -/
def setCursor (p : Nat × Nat) (s : State) : State :=
  { s with curByte := BitVec.ofNat 29 p.1, curSub := BitVec.ofNat 3 p.2 }

/-- `EXTENT <- max(EXTENT, e)` (R138). -/
def raiseExtent (e : Nat) (s : State) : State := { s with extent := BitVec.ofNat 32 (max s.extent.toNat e) }

/-- `MemRead(i, 1)` (R12). -/
def memRead (i : Nat) (s : State) : Byte := s.storage.read i

/-- `MemWrite(i, 1, v)` (R12, R55): the byte, and `LEN_BYTES <- max(LEN_BYTES, i + 1)`. -/
def memWrite (i : Nat) (v : Byte) (s : State) : State :=
  { s with storage := s.storage.write i v, lenBytes := BitVec.ofNat 30 (max s.lenBytes.toNat (i + 1)) }

/-- `BitRead(o)` (R12, R40): offset o is bit 7 - (o mod 8) of byte o div 8. -/
def bitRead (o : Nat) (s : State) : Bool := (memRead (o / 8) s).getLsbD (7 - o % 8)

/-- One response delivered to the host (R70). -/
def deliver (r : Response) (s : State) : State := { s with responses := s.responses ++ [r] }

/-- The code of a fault in `STATUS` (R210); 0 is "no fault". -/
def FaultCode.code : FaultCode → BitVec 4
  | .typeMismatch => 1
  | .insufficientData => 2
  | .illegalCommand => 3
  | .illegalOperand => 4
  | .pointerOverflow => 5
  | .capacityExceeded => 6

/-- `raise F` (R12), the one fault entry of R212 and R213: no state changes, and the command's response carries the code,
`RVAL` = 0 and no beat. There is no handler, no saved state and nothing to return from (R213, R214, R228): the block takes
the next command as after any response. -/
def raise (f : FaultCode) (s : State) : Result := .next (deliver ⟨f.code, 0, []⟩ s)

/-- `respond(v)` (R12). -/
def respond (v : Nat) (s : State) : Result := .next (deliver ⟨0, BitVec.ofNat 32 v, []⟩ s)

/-- The beats of a read result (R72): one per chunk, in order, each right-aligned, `CB_LAST` on the last. -/
def beatsOf : List BitString → List Beat
  | [] => []
  | R :: rest => ⟨BitVec.ofNat 4 R.length, BitVec.ofNat 8 (val R), rest.isEmpty⟩ :: beatsOf rest

/-- `respond_bits(R)` (R12, R70, R72), `R` given by its chunks. -/
def respondBits (chunks : List BitString) (s : State) : Result :=
  .next (deliver ⟨0, BitVec.ofNat 32 chunks.flatten.length, beatsOf chunks⟩ s)

/-- The chunk loop of R133, from the pair (b, s) over the symbols not yet written. The first argument bounds the number of
chunks; the length of `W` is enough, since each chunk takes at least one symbol. -/
def writerCore : Nat → Nat → Nat → BitString → State → (Nat × Nat) × State
  | 0, b, s, _, st => ((b, s), st)
  | k + 1, b, s, W, st =>
    if W.isEmpty then ((b, s), st)
    else
      let n := chunk s W.length
      let p := stepPair b s n
      writerCore k p.1 p.2 (W.drop n) (memWrite b (merge (memRead b st) s n (val (W.take n))) st)

/-- What every write of `L` ≥ 1 bits at a checked window does (R132, R133, R138): the window written, `EXTENT` raised. It
answers the pair the core ends at (R137) and the state. -/
def writeWindow (b0 s0 L : Nat) (pat : Pattern) (s : State) : (Nat × Nat) × State :=
  let r := writerCore L b0 s0 (rightAlign L (symbolsOf pat)) s
  (r.1, raiseExtent (join b0 s0 + L) r.2)

/-- Steps (3) to (5) of a bounded write (R170): capacity, the write if the length is at least 1, the cursor to
`split(EXTENT)`. -/
def boundedWrite (b0 s0 L : Nat) (pat : Pattern) (s : State) : Result :=
  if 1 ≤ L ∧ capBits s.params < join b0 s0 + L then raise .capacityExceeded s
  else
    let s' := if 1 ≤ L then (writeWindow b0 s0 L pat s).2 else s
    respond 0 (setCursor (split s'.extent.toNat) s')

/-- The part of [pos, stop) that lies in byte b, as a chunk of the result (R151). -/
def readChunk (pos stop : Nat) (s : State) (b : Nat) : BitString :=
  let lo := max pos (8 * b)
  let hi := min stop (8 * b + 8)
  bitsOf (hi - lo) (extract (memRead b s) (lo - 8 * b) (hi - lo))

/-- The reader core (R151, R152): the chunks of [pos, min(req, EXTENT)), one per byte visited, ascending. -/
def readerCore (pos req : Nat) (s : State) : List BitString :=
  let stop := min req s.extent.toNat
  if stop ≤ pos then []
  else (List.range' (pos / 8) ((stop - 1) / 8 + 1 - pos / 8)).map (readChunk pos stop s)

/-- The reader core behind a check that every byte it visits exists (R12: `MemRead(i, 1)` is for i < `CAP_BYTES`). Where
the range ends above `CAP_BITS` the last byte visited does not (log entry 6). -/
def readRange (pos req : Nat) (s : State) : Except Fault (List BitString) :=
  let stop := min req s.extent.toNat
  if pos < stop ∧ capBits s.params < stop then .error (.noSuchByte ((stop - 1) / 8))
  else .ok (readerCore pos req s)

/-- The end of READ, READFROM and READN: the bits of [pos, req) read in `s`, delivered in `s'`, the state with the cursor
where the command leaves it. -/
def answerRange (pos req : Nat) (s s' : State) : Result :=
  match readRange pos req s with
  | .ok chunks => respondBits chunks s'
  | .error f => .fault f

/-- The common semantics of RDU8, RDU16 and RDU32 (R186). The rows exist only under `HAS_TYPED` (R75); where it is false the
decoder refuses them already, and so does the command itself (R220). -/
def typedRead (w : Nat) (pos : Option Word) (s : State) : Result :=
  if !s.params.hasTyped then raise .illegalCommand s
  else
    let p := match pos with
      | some a => a.toNat
      | none => curOff s
    if s.extent.toNat < p + w then raise .insufficientData s
    else
      match readRange p (p + w) s with
      | .error f => .fault f
      | .ok chunks =>
        let s' := match pos with
          | some a => setCursor (split a.toNat) s
          | none => s
        respond (val chunks.flatten) s'

/-- `RST` (R240, R36): every piece of the block's state at its reset value. What the host presents and what has been
delivered are the host's, and the parameters are fixed. -/
def applyRst (s : State) : Result :=
  .next { State.reset with params := s.params, inputs := s.inputs, responses := s.responses }

/-- The next thing the host presents, and the state with it taken (R60, R29). -/
def takeInput (s : State) : Option (Input × State) :=
  match s.inputs with
  | [] => none
  | x :: rest => some (x, { s with inputs := rest })

/-- Nothing presented: the block waits and nothing changes (R245; log entry 4). -/
def idle (s : State) : Result := .next s

/-- A header that no row matches (R77, R220). -/
def rejectCommand (s : State) : Result := raise .illegalCommand s

/-- A command put at the head of what the host presents. -/
def presentCommand (c : Command) (s : State) : State := { s with inputs := .command c :: s.inputs }

end Sys2Proof.Machine
end

