-- ==== Sys2Proof/Machine/BoundedWrite.lean ====
section
/-! DEFINITION. The bounded-write helpers (spec/43_bounded_write.md R170 to R173). -/

namespace Sys2Proof.Machine

/-- WRITEAT.ABS (R171). -/
def execWriteatAbs (pos : Word) (len : Option Word) (src : SourceTag) (pat : Pattern) (s : State) : Result :=
  if sourceBad src pat then raise .typeMismatch s
  else boundedWrite (pos.toNat / 8) (pos.toNat % 8) (resolveLength len pat) pat s

/-- WRITEAT.PAIR (R172): the raw sub-bit is reduced without carry (R103). -/
def execWriteatPair (byte : Word) (sub : Byte) (len : Option Word) (src : SourceTag) (pat : Pattern) (s : State) :
    Result :=
  if sourceBad src pat then raise .typeMismatch s
  else if pairByteBad byte then raise .illegalOperand s
  else boundedWrite (pairByte byte) (normsub sub.toNat) (resolveLength len pat) pat s

/-- WRITERANGE (R173): a degenerate range has length 0. -/
def execWriterange (start stop : Word) (src : SourceTag) (pat : Pattern) (s : State) : Result :=
  if sourceBad src pat then raise .typeMismatch s
  else
    let L := if start.toNat < stop.toNat then stop.toNat - start.toNat else 0
    boundedWrite (start.toNat / 8) (start.toNat % 8) L pat s

end Sys2Proof.Machine
end

