-- ==== Sys2Proof/Machine/Pointer.lean ====
section
/-! DEFINITION. The pointer commands (spec/40_pointer.md R109 to R114). -/

namespace Sys2Proof.Machine

/-- GETOFF (R109). -/
def execGetoff (s : State) : Result := respond (curOff s) s

/-- SETABS (R110). -/
def execSetabs (off : Word) (s : State) : Result := respond 0 (setCursor (split off.toNat) s)

/-- SETPAIR (R111, R65, R103). -/
def execSetpair (byte : Word) (sub : Byte) (s : State) : Result :=
  if pairByteBad byte then raise .illegalOperand s
  else respond 0 (setCursor (pairByte byte, normsub sub.toNat) s)

/-- MVSTART (R112). -/
def execMvstart (s : State) : Result := respond 0 (setCursor (0, 0) s)

/-- MVEND (R113). -/
def execMvend (s : State) : Result := respond 0 (setCursor (split s.extent.toNat) s)

/-- ADVBYTE (R114). -/
def execAdvbyte (s : State) : Result :=
  if s.curByte.toNat = 2 ^ 29 - 1 then raise .pointerOverflow s
  else respond 0 (setCursor (s.curByte.toNat + 1, 0) s)

end Sys2Proof.Machine
end

