-- ==== Sys2Proof/Machine/Reader.lean ====
section
/-! DEFINITION. The bit reader's commands (spec/42_reader.md R154 to R156). -/

namespace Sys2Proof.Machine

/-- READ (R154): from the cursor to `EXTENT`; the cursor stays. -/
def execRead (s : State) : Result := answerRange (curOff s) s.extent.toNat s s

/-- READFROM (R155): the cursor ends at the position, also when the result is empty. -/
def execReadfrom (pos : Word) (s : State) : Result :=
  answerRange pos.toNat s.extent.toNat s (setCursor (split pos.toNat) s)

/-- READN (R156): a negative length is an illegal operand; the cursor ends at the position. -/
def execReadn (pos len : Word) (s : State) : Result :=
  if len.toInt < 0 then raise .illegalOperand s
  else answerRange pos.toNat (pos.toNat + len.toInt.toNat) s (setCursor (split pos.toNat) s)

end Sys2Proof.Machine
end

