-- ==== Sys2Proof/Machine/System.lean ====
section
/-! DEFINITION. Construction (spec/45_system.md R200 to R202). -/

namespace Sys2Proof.Machine

/-- `EXTENT` after INIT (R200, R201; decision D13). -/
def initExtent (p : Params) (n : Nat) : Nat :=
  match p.initExtentMode with
  | .rounded => 8 * ceil8 n
  | .zero => 0

/-- INIT (R200). -/
def execInit (e : Endian) (n : Word) (s : State) : Result :=
  if capBits s.params < n.toNat then raise .capacityExceeded s
  else
    respond 0 (setEndian e (setCursor (0, 0)
      { s with storage := [], lenBytes := BitVec.ofNat 30 (ceil8 n.toNat),
               extent := BitVec.ofNat 32 (initExtent s.params n.toNat) }))

end Sys2Proof.Machine
end

