-- ==== Sys2Proof/Machine/TypedRead.lean ====
section
/-! DEFINITION. The typed unsigned reads (spec/44_typed_read.md R186 to R189). -/

namespace Sys2Proof.Machine

/-- RDU8 (R187). -/
def execRdu8 (pos : Option Word) (s : State) : Result := typedRead 8 pos s

/-- RDU16 (R188). -/
def execRdu16 (pos : Option Word) (s : State) : Result := typedRead 16 pos s

/-- RDU32 (R189). -/
def execRdu32 (pos : Option Word) (s : State) : Result := typedRead 32 pos s

end Sys2Proof.Machine
end

