-- ==== Sys2Proof/Machine/Writer.lean ====
section
/-! DEFINITION. The bit writer's command (spec/41_writer.md R143). -/

namespace Sys2Proof.Machine

/-- WRITE (R143). -/
def execWrite (len : Option Word) (src : SourceTag) (pat : Pattern) (s : State) : Result :=
  if sourceBad src pat then raise .typeMismatch s
  else
    let L := resolveLength len pat
    if L = 0 then respond 0 s
    else if capBits s.params < curOff s + L then raise .capacityExceeded s
    else
      let r := writeWindow s.curByte.toNat s.curSub.toNat L pat s
      respond 0 (setCursor r.1 r.2)

end Sys2Proof.Machine
end

