-- ==== Sys2Proof/Machine/Dispatch.lean ====
section
/-! DEFINITION. The meaning of each command, one arm per row of spec/opcode_table.json. -/

namespace Sys2Proof.Machine

def exec (i : Instr) (s : State) : Host.Outcome State Fault Refusal :=
  match i with
  | .init e n => Sys2Proof.Machine.execInit e n s
  | .getoff => Sys2Proof.Machine.execGetoff s
  | .setabs off => Sys2Proof.Machine.execSetabs off s
  | .setpair byte sub => Sys2Proof.Machine.execSetpair byte sub s
  | .mvstart => Sys2Proof.Machine.execMvstart s
  | .mvend => Sys2Proof.Machine.execMvend s
  | .advbyte => Sys2Proof.Machine.execAdvbyte s
  | .write len src pat => Sys2Proof.Machine.execWrite len src pat s
  | .writeatAbs pos len src pat => Sys2Proof.Machine.execWriteatAbs pos len src pat s
  | .writeatPair byte sub len src pat => Sys2Proof.Machine.execWriteatPair byte sub len src pat s
  | .writerange start stop src pat => Sys2Proof.Machine.execWriterange start stop src pat s
  | .read => Sys2Proof.Machine.execRead s
  | .readfrom pos => Sys2Proof.Machine.execReadfrom pos s
  | .readn pos len => Sys2Proof.Machine.execReadn pos len s
  | .rdu8 pos => Sys2Proof.Machine.execRdu8 pos s
  | .rdu16 pos => Sys2Proof.Machine.execRdu16 pos s
  | .rdu32 pos => Sys2Proof.Machine.execRdu32 pos s

end Sys2Proof.Machine
end

