-- ==== Sys2Proof/Machine/Step.lean ====
section
/-! DEFINITION. One step of the machine (spec/60_exceptions.md R230): take what the host presents next and complete it. -/

namespace Sys2Proof.Machine

/-- One command, decoded and run whole (R46, R76, R230); or `RST` (R240); or nothing presented. -/
def step (s : State) : Host.Outcome State Fault Refusal :=
  match takeInput s with
  | none => idle s
  | some (.rst, t) => applyRst t
  | some (.command c, t) =>
    match decode t.params c with
    | .error _ => rejectCommand t
    | .ok i => exec i t

/-- `s` with the command of those bits presented next, so that the next step runs it (log entries 1 and 7). -/
def State.withFetchWord (s : State) (nbits w : Nat) : State := presentCommand (Command.ofTableBits nbits w) s

end Sys2Proof.Machine
end

