-- ==== Sys2Proof/Safety.lean ====
section
/-! DEFINITION. What counts as a safe run (the invariants of spec/10_state.md R25, R27, R28, R32, R33), and the vocabulary
the statements are written in: what a write leaves, what a read answers, what no command touched. -/

namespace Sys2Proof.Machine

/-- The invariants the spec states for every reachable state. `sub` (R34) needs no clause: `CUR_SUB` has three bits. -/
structure State.Inv (s : State) : Prop where
  /-- the memory keeps its canonical form -/
  canonical : s.storage.wf = true
  /-- R28: `LEN_BYTES` ≤ `CAP_BYTES` -/
  lenLeCap : s.lenBytes.toNat ≤ s.params.capBytes.val
  /-- R32, I-LEN: `LEN_BYTES` × 8 ≥ `EXTENT` -/
  extentLeLen : s.extent.toNat ≤ 8 * s.lenBytes.toNat
  /-- R33, I-ZERO: every bit at an offset ≥ `EXTENT` is 0 -/
  zeroAboveExtent : ∀ o, s.extent.toNat ≤ o → bitRead o s = false
  /-- R33, I-ZERO: every byte at an index ≥ `LEN_BYTES` is 0x00 -/
  zeroAboveLen : ∀ i, s.lenBytes.toNat ≤ i → memRead i s = 0

/-- A step that the spec's own behaviour covers: it answers a next state. -/
def SafeStep (s : State) : Prop := ∃ t, step s = .next t

/-- The six pieces of state the spec gives the block (R15) are the same. -/
def SameBlock (s t : State) : Prop :=
  t.curByte = s.curByte ∧ t.curSub = s.curSub ∧ t.extent = s.extent ∧ t.lenBytes = s.lenBytes ∧ t.endian = s.endian ∧
    t.storage = s.storage

/-- The response of a command that completes with the value `v` and no beat (R70). -/
def okResponse (v : Word) : Response := ⟨0, v, []⟩

/-- The response of a command that ends in a fault (R213): its code, `RVAL` = 0, no beat. -/
def faultResponse (f : FaultCode) : Response := ⟨f.code, 0, []⟩

/-- `s` after one more response, nothing else changed. -/
def responded (r : Response) (s : State) : State := { s with responses := s.responses ++ [r] }

/-- R132 on the wires: symbol i, 0 ≤ i < L, of the low L bits of `zext(PDATA[PLEN-1:0])`, most significant first. -/
def writtenSymbol (pat : Pattern) (L i : Nat) : Bool :=
  decide (L - 1 - i < pat.plen.toNat) && pat.pdata.getLsbD (L - 1 - i)

/-- What a write of `L` ≥ 1 bits at `start` leaves, the cursor and the response apart: every bit of the window is the written
symbol and every other bit is as it was (R134, R139); `EXTENT` = max(`EXTENT`, start + L) (R138); `LEN_BYTES` is raised to
the window's last byte (R55); nothing else changes. -/
structure WindowWritten (start L : Nat) (pat : Pattern) (s t : State) : Prop where
  inWindow : ∀ i, i < L → bitRead (start + i) t = writtenSymbol pat L i
  outside : ∀ o, (o < start ∨ start + L ≤ o) → bitRead o t = bitRead o s
  bytes : ∀ i, (i < start / 8 ∨ (start + L - 1) / 8 < i) → memRead i t = memRead i s
  extent : t.extent.toNat = max s.extent.toNat (start + L)
  lenBytes : t.lenBytes.toNat = max s.lenBytes.toNat (ceil8 (start + L))
  endian : t.endian = s.endian
  params : t.params = s.params
  inputs : t.inputs = s.inputs

/-- R131: `L` is the resolved length of a write. -/
def ResolvedLength (len : Option Word) (pat : Pattern) (L : Nat) : Prop :=
  match len with
  | none => L = pat.plen.toNat
  | some b => (L : Int) = |b.toInt|

/-- R66, R67: the source of a write is a bit-string or a buffer, and the pattern is a bit-string of at most 64 symbols. -/
def GoodSource (src : SourceTag) (pat : Pattern) : Prop :=
  (src = .rawBitPattern ∨ src = .bufferHandle) ∧ pat.plen.toNat ≤ 64

/-- The block with its cursor at the 32-bit offset `o`: `CUR_BYTE` = o[31:3], `CUR_SUB` = o[2:0] (R100). -/
def cursorAt (o : Word) (s : State) : State := { s with curByte := o.extractLsb' 3 29, curSub := o.extractLsb' 0 3 }

/-- What a write command of `L` ≥ 1 bits at `start` leaves: the window written, the cursor at the given offset, one response
with `STATUS` = 0 and nothing else added (R70). -/
structure WriteDone (start L : Nat) (pat : Pattern) (cursor : Nat) (s t : State) : Prop where
  window : WindowWritten start L pat s t
  cursor : curOff t = cursor
  responses : t.responses = s.responses ++ [okResponse 0]

/-- The window `[start, start + L)` a write command names in a state, resolved (R130, R131, R170 to R173); `none` for a command
that is no write. -/
def writeTarget (i : Instr) (s : State) : Option (Nat × Nat) :=
  match i with
  | .write len _ pat => some (curOff s, resolveLength len pat)
  | .writeatAbs pos len _ pat => some (pos.toNat, resolveLength len pat)
  | .writeatPair byte sub len _ pat => some (8 * pairByte byte + sub.toNat % 8, resolveLength len pat)
  | .writerange start stop _ _ => some (start.toNat, stop.toNat - start.toNat)
  | _ => none

/-- The three commands of spec/43_bounded_write.md. -/
def isPositionedWrite : Instr → Bool
  | .writeatAbs _ _ _ _ => true
  | .writeatPair _ _ _ _ _ => true
  | .writerange _ _ _ _ => true
  | _ => false

/-- INIT. -/
def isInit : Instr → Bool
  | .init _ _ => true
  | _ => false

/-- The header fields a row of R75 lists as used, and its operands (R61, R75): the table's columns, for the statements about
decoding. -/
structure RowUse where
  op   : Byte
  hl   : Bool := false
  hp   : Bool := false
  src  : Bool := false
  e    : Bool := false
  sub  : Bool := false
  a    : Bool := false
  b    : Bool := false
  pat  : Bool := false
  deriving DecidableEq, Repr

/-- The columns `OP`, `used HDR fields` and `operands` of R75. -/
def rowUse : Opcode → RowUse
  | .init => { op := 0x01, e := true, a := true }
  | .getoff => { op := 0x10 }
  | .setabs => { op := 0x11, a := true }
  | .setpair => { op := 0x12, sub := true, a := true }
  | .mvstart => { op := 0x13 }
  | .mvend => { op := 0x14 }
  | .advbyte => { op := 0x15 }
  | .write => { op := 0x20, hl := true, src := true, b := true, pat := true }
  | .writeatAbs => { op := 0x21, hl := true, src := true, a := true, b := true, pat := true }
  | .writeatPair => { op := 0x22, hl := true, src := true, sub := true, a := true, b := true, pat := true }
  | .writerange => { op := 0x23, src := true, a := true, b := true, pat := true }
  | .read => { op := 0x30 }
  | .readfrom => { op := 0x31, a := true }
  | .readn => { op := 0x32, a := true, b := true }
  | .rdu8 => { op := 0x40, hp := true, a := true }
  | .rdu16 => { op := 0x41, hp := true, a := true }
  | .rdu32 => { op := 0x42, hp := true, a := true }

/-- R62: the `OP` byte is the row's, every field the row does not use is 0, and the reserved bits 15:13 and 31:24 are 0. -/
def HeaderFits (op : Opcode) (h : Word) : Prop :=
  hdrOp h = (rowUse op).op ∧ ((rowUse op).hl = false → hdrHl h = false) ∧ ((rowUse op).hp = false → hdrHp h = false) ∧
    ((rowUse op).src = false → hdrSrcBits h = 0) ∧ ((rowUse op).e = false → hdrEBit h = false) ∧
    ((rowUse op).sub = false → hdrSub h = 0) ∧ h.extractLsb' 13 3 = 0 ∧ h.extractLsb' 24 8 = 0

/-- The bit-string a response delivers: its beats' chunks in order (R72). -/
def Response.bits (r : Response) : BitString := (r.beats.map (fun b => bitsOf b.cbLen.toNat b.cbBits.toNat)).flatten

/-- R153: a result of `n` symbols, the bits at ascending offsets from `pos`, first symbol first. -/
def IsRange (pos n : Nat) (s : State) (R : BitString) : Prop :=
  R = (List.range n).map (fun i => bitRead (pos + i) s)

/-- What READ, READFROM and READN answer (R70, R72, R153) for the range that starts at `pos` and holds `n` bits: the range
itself as the concatenation of the beats, `RVAL` its length, one beat per byte visited, each of 1 to 8 symbols with the
bits above them 0, `CB_LAST` on the last beat only. -/
structure RangeAnswered (pos n : Nat) (s : State) (r : Response) : Prop where
  status : r.status = 0
  rval : r.rval.toNat = n
  bits : IsRange pos n s r.bits
  beats : r.beats.length = if n = 0 then 0 else (pos + n - 1) / 8 - pos / 8 + 1
  lengths : ∀ b ∈ r.beats, 1 ≤ b.cbLen.toNat ∧ b.cbLen.toNat ≤ 8 ∧ b.cbBits.toNat < 2 ^ b.cbLen.toNat
  last : ∀ k (h : k < r.beats.length), (r.beats[k]).cbLast = decide (k + 1 = r.beats.length)

/-- `Σ BitRead(pos + i) × 2^(W-1-i)`, 0 ≤ i < W (R186). -/
def rangeValue (pos w : Nat) (s : State) : Nat :=
  ((List.range w).map (fun i => (bitRead (pos + i) s).toNat * 2 ^ (w - 1 - i))).sum

end Sys2Proof.Machine
end

