-- ==== Sys2Proof/Certificates/Slice0/Obligations.lean ====
section
/-! DEFINITION. The statements for the provers. Each docstring names the rules of spec/ it formalises; rules that the spec
marks [decision] or [derived] are its own choices or inferences, and statements that rest on them are listed with basis
derived. -/

open Sys2Proof Sys2Proof.Machine

/-! ### Reset and the step -/

/-- 10_state.md R36 (decisions D4, D14, D15): the values of reset. -/
def Obligations.ResetHoldsSpecValues : Prop :=
  State.reset.curByte = 0 ∧ State.reset.curSub = 0 ∧ State.reset.extent = 0 ∧ State.reset.lenBytes = 0 ∧
    State.reset.endian = .big ∧ ∀ i, memRead i State.reset = 0

/-- 60_exceptions.md R230, 30_encoding.md R76 (derived): a step takes the command presented first and does exactly what its
instruction means. That commands stand in the list `inputs` is the model's choice (log entry 1). -/
def Obligations.StepRunsDecodedCommand : Prop :=
  ∀ (s : State) (c : Command) (rest : List Input) (i : Instr),
    s.inputs = .command c :: rest → decode s.params c = .ok i → step s = exec i { s with inputs := rest }

/-- 30_encoding.md R77, 60_exceptions.md R220 (decisions D6, D24): a command that no row matches answers `IllegalCommand` and
changes nothing. -/
def Obligations.StepRejectsUndecodableCommand : Prop :=
  ∀ (s : State) (c : Command) (rest : List Input) (e : Illegal),
    s.inputs = .command c :: rest → decode s.params c = .error e →
      step s = .next { s with inputs := rest, responses := s.responses ++ [⟨3, 0, []⟩] }

/-- 70_reset_and_hazards.md R240 (decision D15), and R245: `RST` puts every piece of the block's state at its reset value
without a response; with nothing presented nothing changes (the model's choices, log entries 4 and 5). -/
def Obligations.StepOnResetAndOnNothing : Prop :=
  (∀ (s : State) (rest : List Input), s.inputs = .rst :: rest →
    ∃ t, step s = .next t ∧ SameBlock State.reset t ∧ t.params = s.params ∧ t.inputs = rest ∧
      t.responses = s.responses) ∧
  (∀ s : State, s.inputs = [] → step s = .next s)

/-- 60_exceptions.md R230 (derived): from every state that meets the invariants, whatever the host presents, a step answers a
next state; the block is never stuck. -/
def Obligations.StepAlwaysAnswers : Prop := ∀ s : State, s.Inv → SafeStep s

/-- 30_encoding.md R70, 60_exceptions.md R210, R212, R213 (decisions D11, D12, D30): every command gets exactly one response;
its `STATUS` is 0 to 6; when it is not 0, `RVAL` is 0, there is no beat, and nothing else changed. -/
def Obligations.EveryCommandAnswersOnceAndFaultsChangeNothing : Prop :=
  ∀ (s t : State) (c : Command) (rest : List Input), s.inputs = .command c :: rest → step s = .next t →
    ∃ r : Response, t.responses = s.responses ++ [r] ∧ r.status.toNat ≤ 6 ∧ t.inputs = rest ∧ t.params = s.params ∧
      (r.status ≠ 0 → r.rval = 0 ∧ r.beats = [] ∧
        t = { s with inputs := rest, responses := s.responses ++ [r] })

/-! ### Invariants -/

/-- 10_state.md R25, R27, R28, R32, R33: the invariants hold after reset. -/
def Obligations.ResetMeetsInvariants : Prop := State.reset.Inv

/-- 10_state.md R25, R27, R28, R32, R33 (R33 with decision D4): every step keeps the invariants. -/
def Obligations.StepKeepsInvariants : Prop := ∀ s t : State, s.Inv → step s = .next t → t.Inv

/-- 10_state.md R35: no command other than INIT lowers `EXTENT` or `LEN_BYTES`, and after a write that does not fault
`EXTENT` is max(previous, position + length) where the length is at least 1. -/
def Obligations.ExtentAndLengthNeverDecrease : Prop :=
  ∀ (i : Instr) (s t : State), isInit i = false → exec i s = .next t →
    s.extent.toNat ≤ t.extent.toNat ∧ s.lenBytes.toNat ≤ t.lenBytes.toNat ∧
      (∀ start L, writeTarget i s = some (start, L) → 1 ≤ L → t.responses = s.responses ++ [okResponse 0] →
        t.extent.toNat = max s.extent.toNat (start + L))

/-- 70_reset_and_hazards.md R243: INIT sets `ENDIAN` and destroys the data; no other command changes the flag. -/
def Obligations.EndianIsChosenOnlyByInit : Prop :=
  (∀ (i : Instr) (s t : State), isInit i = false → exec i s = .next t → t.endian = s.endian) ∧
  (∀ (e : Endian) (n : Word) (s t : State), exec (.init e n) s = .next t →
    t.responses = s.responses ++ [okResponse 0] → t.endian = e ∧ ∀ i, memRead i t = 0)

/-- 20_memory.md R42, 10_state.md R26: no command but INIT reads or writes `ENDIAN`: with the other value of the flag every
command does the same, response and all. -/
def Obligations.EndianIsReadByNoCommand : Prop :=
  ∀ (i : Instr) (s t : State) (e : Endian), isInit i = false → exec i s = .next t →
    exec i { s with endian := e } = .next { t with endian := e }

/-- 40_pointer.md (its opening), 42_reader.md R157, 44_typed_read.md (its opening): a command that is neither INIT nor a write
touches neither storage, `EXTENT`, `LEN_BYTES` nor `ENDIAN`. -/
def Obligations.PointerAndReadCommandsKeepStorage : Prop :=
  ∀ (i : Instr) (s t : State), isInit i = false → writeTarget i s = none → exec i s = .next t →
    t.storage = s.storage ∧ t.extent = s.extent ∧ t.lenBytes = s.lenBytes ∧ t.endian = s.endian ∧
      t.params = s.params ∧ t.inputs = s.inputs

/-! ### Encoding -/

/-- 30_encoding.md R75, R80 with the wire forms of 95_test_vectors.md: words written out decode to their commands. -/
def Obligations.SpecWordsDecode : Prop :=
  decode .reference ⟨0x00001001, 3, 0, ⟨0, 0⟩⟩ = .ok (.init .little 3) ∧
  decode .reference ⟨0x00FF0012, 5, 0, ⟨0, 0⟩⟩ = .ok (.setpair 5 255) ∧
  decode .reference ⟨0x00000120, 0, 0xFFFFFFFC, ⟨6, 0x35⟩⟩ =
    .ok (.write (some 0xFFFFFFFC) .rawBitPattern ⟨6, 0x35⟩) ∧
  decode .reference ⟨0x00000420, 0, 0, ⟨1, 1⟩⟩ = .ok (.write none .bufferHandle ⟨1, 1⟩) ∧
  decode .reference ⟨0x000B0022, 1, 0, ⟨2, 3⟩⟩ = .ok (.writeatPair 1 11 none .rawBitPattern ⟨2, 3⟩) ∧
  decode .reference ⟨0x00000023, 4, 6, ⟨4, 0xF⟩⟩ = .ok (.writerange 4 6 .rawBitPattern ⟨4, 0xF⟩) ∧
  decode .reference ⟨0x00000032, 10, 100, ⟨0, 0⟩⟩ = .ok (.readn 10 100) ∧
  decode .reference ⟨0x00000241, 4, 0, ⟨0, 0⟩⟩ = .ok (.rdu16 (some 4)) ∧
  decode .reference ⟨0, 0, 0, ⟨0, 0⟩⟩ = .error .undefinedOpcode ∧
  decode .reference ⟨0x00000220, 0, 0, ⟨1, 1⟩⟩ = .error .strayBits

/-- 30_encoding.md R61, R75: decoding an encoded command that exists in the configuration gives it back, every operand at
every value. -/
def Obligations.DecodeOfEncodeIsTheCommand : Prop :=
  ∀ (p : Params) (i : Instr), i.wf p = true → decode p (encode i) = .ok i

/-- 30_encoding.md R61, R75, the other way: a decoded command's encoding is the header that was decoded, and the command
exists in the configuration. -/
def Obligations.EncodeOfDecodeIsTheHeader : Prop :=
  ∀ (p : Params) (c : Command) (i : Instr), decode p c = .ok i → encodeHdr i = c.hdr ∧ i.wf p = true

/-- 30_encoding.md R62, R75, R77 (decisions D6, D24): the mask and match of the opcode map accept exactly the headers that the
field description accepts: the row's `OP`, its unused fields 0, the reserved bits 0, and `HAS_TYPED` for a typed read. -/
def Obligations.OpcodeMapAgreesWithHeaderFields : Prop :=
  ∀ (p : Params) (h : Word) (op : Opcode),
    rowOf p h = .ok op ↔ HeaderFits op h ∧ (op.isTyped = true → p.hasTyped = true)

/-- 30_encoding.md R75: no header selects two rows. -/
def Obligations.OpcodeRowsAreDisjoint : Prop :=
  ∀ (h : Word) (r r' : Row), r ∈ opcodeTable → r' ∈ opcodeTable → r.selects h = true → r'.selects h = true → r = r'

/-- 30_encoding.md R63 (decision D24): an operand the command does not use does not affect it: commands with one header that
agree on the operands its row uses decode alike. `B` is used only under `HL` and `A` only under `HP` where the row has
those fields (R61). -/
def Obligations.UnusedOperandsAreIgnored : Prop :=
  ∀ (p : Params) (c c' : Command) (op : Opcode), c.hdr = c'.hdr → rowOf p c.hdr = .ok op →
    (((rowUse op).a = true ∧ ((rowUse op).hp = true → hdrHp c.hdr = true)) → c.a = c'.a) →
    (((rowUse op).b = true ∧ ((rowUse op).hl = true → hdrHl c.hdr = true)) → c.b = c'.b) →
    ((rowUse op).pat = true → c.pat = c'.pat) → decode p c = decode p c'

/-- 30_encoding.md R67 (decision D5): the bits of `PDATA` at and above `PLEN` are ignored by all four write commands. -/
def Obligations.PatternBitsAbovePlenAreIgnored : Prop :=
  ∀ (s : State) (len : Option Word) (src : SourceTag) (p q : Pattern) (pos byte stop : Word) (sub : Byte),
    q.plen = p.plen → (∀ k, k < p.plen.toNat → q.pdata.getLsbD k = p.pdata.getLsbD k) →
      exec (.write len src q) s = exec (.write len src p) s ∧
      exec (.writeatAbs pos len src q) s = exec (.writeatAbs pos len src p) s ∧
      exec (.writeatPair byte sub len src q) s = exec (.writeatPair byte sub len src p) s ∧
      exec (.writerange pos stop src q) s = exec (.writerange pos stop src p) s

/-! ### The converter and the chunk arithmetic -/

/-- 40_pointer.md R100, R101: the converter over the naturals, and as wiring for 32-bit offsets and pairs. -/
def Obligations.ConverterSplitsAndJoins : Prop :=
  (∀ o : Nat, (split o).2 = o % 8 ∧ (split o).1 = (o - (split o).2) / 8 ∧ 8 ∣ o - (split o).2) ∧
  (∀ o : Word, (split o.toNat).1 = (o.extractLsb' 3 29).toNat ∧ (split o.toNat).2 = (o.extractLsb' 0 3).toNat) ∧
  (∀ b s : Nat, s ≤ 7 → join b s = 8 * b + s) ∧
  (∀ (b : ByteIndex) (s : SubIndex), join b.toNat s.toNat = (b ++ s).toNat)

/-- 40_pointer.md R102 (derived): offsets and normalized pairs are in one-to-one correspondence. -/
def Obligations.ConverterIsOneToOne : Prop :=
  (∀ o : Nat, join (split o).1 (split o).2 = o) ∧ (∀ b s : Nat, s ≤ 7 → split (join b s) = (b, s))

/-- 40_pointer.md R104, R105: the bounds of a chunk, the two cases of a step, and its law. -/
def Obligations.ChunkFitsAndStepAdvances : Prop :=
  (∀ s rem : Nat, s ≤ 7 → 1 ≤ rem →
    chunk s rem = min (8 - s) rem ∧ 1 ≤ chunk s rem ∧ chunk s rem ≤ 8 - s ∧ 8 - s ≤ 8) ∧
  (∀ b s n : Nat, s ≤ 7 → 1 ≤ n → n ≤ 8 - s →
    (s + n = 8 → stepPair b s n = (b + 1, 0)) ∧ (s + n ≤ 7 → stepPair b s n = (b, s + n)) ∧
      join (stepPair b s n).1 (stepPair b s n).2 = join b s + n)

/-- 40_pointer.md R106: the mask covers byte bits 7 - s down to 8 - s - n; a merged value is extracted again; the bits outside
the mask are kept; merging again changes nothing; merge and extract are the rule's formulas. -/
def Obligations.MergeAndExtractLaws : Prop :=
  ∀ (old : Byte) (s n v : Nat), s ≤ 7 → 1 ≤ n → n ≤ 8 - s → v < 2 ^ n →
    (∀ k, k < 8 → ((mask s n).getLsbD k = true ↔ 8 - s - n ≤ k ∧ k ≤ 7 - s)) ∧
    (mask s n).toNat = (2 ^ n - 1) * 2 ^ (8 - s - n) ∧
    (merge old s n v).toNat = (old &&& ~~~mask s n).toNat + v * 2 ^ (8 - s - n) ∧
    extract old s n = old.toNat / 2 ^ (8 - s - n) % 2 ^ n ∧
    extract (merge old s n v) s n = v ∧
    merge old s n v &&& ~~~mask s n = old &&& ~~~mask s n ∧
    merge (merge old s n v) s n v = merge old s n v

/-! ### Pointer commands -/

/-- 40_pointer.md R109, R101: GETOFF answers the concatenation of the cursor's two halves and writes nothing. -/
def Obligations.GetoffAnswersCursorOffset : Prop :=
  ∀ s : State, exec .getoff s =
    .next { s with responses := s.responses ++ [⟨0, (s.curByte ++ s.curSub : BitVec (29 + 3)), []⟩] }

/-- 40_pointer.md R110: SETABS splits any 32-bit offset into the cursor, changes nothing else, and a GETOFF after it answers
the offset. -/
def Obligations.SetabsPlacesCursor : Prop :=
  ∀ (s : State) (off : Word),
    exec (.setabs off) s = .next (responded (okResponse 0) (cursorAt off s)) ∧
    exec .getoff (responded (okResponse 0) (cursorAt off s)) =
      .next (responded (okResponse off) (responded (okResponse 0) (cursorAt off s)))

/-- 40_pointer.md R111, R103, 30_encoding.md R65 (decision D8): SETPAIR keeps the low three bits of the raw sub-bit, without
carry, and with a sub-bit below 8 equals SETABS 8 × byte + sub; a byte index wider than 29 bits is an illegal operand. -/
def Obligations.SetpairDropsCarry : Prop :=
  ∀ (s : State) (byte : Word) (sub : Byte),
    (byte.toNat < 2 ^ 29 →
      exec (.setpair byte sub) s = .next (responded (okResponse 0)
        { s with curByte := byte.extractLsb' 0 29, curSub := sub.extractLsb' 0 3 }) ∧
      (sub.toNat ≤ 7 → exec (.setpair byte sub) s = exec (.setabs (BitVec.ofNat 32 (8 * byte.toNat + sub.toNat))) s)) ∧
    (2 ^ 29 ≤ byte.toNat → exec (.setpair byte sub) s = .next (responded (faultResponse .illegalOperand) s))

/-- 40_pointer.md R112, R113: MVSTART and MVEND put the cursor at 0 and at `EXTENT`, as SETABS would, and change nothing
else. -/
def Obligations.MvstartAndMvendAreShorthands : Prop :=
  ∀ s : State,
    exec .mvstart s = .next (responded (okResponse 0) { s with curByte := 0, curSub := 0 }) ∧
    exec .mvstart s = exec (.setabs 0) s ∧
    exec .mvend s = .next (responded (okResponse 0) (cursorAt s.extent s)) ∧
    exec .mvend s = exec (.setabs s.extent) s ∧
    (s.extent = 0 → exec .mvend s = exec .mvstart s)

/-- 40_pointer.md R114, 60_exceptions.md R222 (decision D23): ADVBYTE always moves to the next byte, and overflows at the last
byte index. -/
def Obligations.AdvbyteMovesToNextByte : Prop :=
  ∀ s : State,
    (s.curByte.toNat < 2 ^ 29 - 1 →
      exec .advbyte s = .next (responded (okResponse 0) { s with curByte := s.curByte + 1, curSub := 0 })) ∧
    (s.curByte.toNat = 2 ^ 29 - 1 →
      exec .advbyte s = .next { s with responses := s.responses ++ [⟨5, 0, []⟩] })

/-- 10_state.md R31, R21 (decision D28): the status outputs show the registers, the offset as the concatenation of the cursor's
halves. -/
def Obligations.StatusOutputsShowRegisters : Prop :=
  ∀ s : State, stByte s = s.curByte ∧ stSub s = s.curSub ∧ stOff s = (s.curByte ++ s.curSub : BitVec (29 + 3)) ∧
    stExtent s = s.extent ∧ stLenBytes s = s.lenBytes ∧ (stEndian s = 0 ↔ s.endian = .big)

/-! ### Writes -/

/-- 41_writer.md R143, R137 (the length, padding, capacity and source rules it uses are decisions D3, D7, D9, D10): WRITE,
every case in its order of precedence. -/
def Obligations.WriteFollowsItsRule : Prop :=
  ∀ (s : State) (len : Option Word) (src : SourceTag) (pat : Pattern) (L : Nat),
    s.storage.wf = true → ResolvedLength len pat L →
    (¬ GoodSource src pat → exec (.write len src pat) s = .next (responded (faultResponse .typeMismatch) s)) ∧
    (GoodSource src pat → L = 0 → exec (.write len src pat) s = .next (responded (okResponse 0) s)) ∧
    (GoodSource src pat → 1 ≤ L → 8 * s.params.capBytes.val < curOff s + L →
      exec (.write len src pat) s = .next (responded (faultResponse .capacityExceeded) s)) ∧
    (GoodSource src pat → 1 ≤ L → curOff s + L ≤ 8 * s.params.capBytes.val →
      ∃ t, exec (.write len src pat) s = .next t ∧ WriteDone (curOff s) L pat (curOff s + L) s t)

/-- 43_bounded_write.md R171: WRITEAT.ABS, every case in its order of precedence; the cursor ends at the new `EXTENT`; repeating
the command adds its response and changes nothing further. -/
def Obligations.WriteatAbsFollowsItsRule : Prop :=
  ∀ (s : State) (pos : Word) (len : Option Word) (src : SourceTag) (pat : Pattern) (L : Nat),
    s.storage.wf = true → ResolvedLength len pat L →
    (¬ GoodSource src pat → exec (.writeatAbs pos len src pat) s = .next (responded (faultResponse .typeMismatch) s)) ∧
    (GoodSource src pat → L = 0 →
      exec (.writeatAbs pos len src pat) s = .next (responded (okResponse 0) (cursorAt s.extent s))) ∧
    (GoodSource src pat → 1 ≤ L → 8 * s.params.capBytes.val < pos.toNat + L →
      exec (.writeatAbs pos len src pat) s = .next (responded (faultResponse .capacityExceeded) s)) ∧
    (GoodSource src pat → 1 ≤ L → pos.toNat + L ≤ 8 * s.params.capBytes.val →
      ∃ t, exec (.writeatAbs pos len src pat) s = .next t ∧
        WriteDone pos.toNat L pat (max s.extent.toNat (pos.toNat + L)) s t ∧
        exec (.writeatAbs pos len src pat) t = .next (responded (okResponse 0) t))

/-- 43_bounded_write.md R172 (decision D8): WRITEAT.PAIR, every case in its order of precedence; the raw sub-bit is reduced
modulo 8 without carry. -/
def Obligations.WriteatPairFollowsItsRule : Prop :=
  ∀ (s : State) (byte : Word) (sub : Byte) (len : Option Word) (src : SourceTag) (pat : Pattern) (L start : Nat),
    s.storage.wf = true → ResolvedLength len pat L → start = 8 * byte.toNat + sub.toNat % 8 →
    (¬ GoodSource src pat →
      exec (.writeatPair byte sub len src pat) s = .next (responded (faultResponse .typeMismatch) s)) ∧
    (GoodSource src pat → 2 ^ 29 ≤ byte.toNat →
      exec (.writeatPair byte sub len src pat) s = .next (responded (faultResponse .illegalOperand) s)) ∧
    (GoodSource src pat → byte.toNat < 2 ^ 29 → L = 0 →
      exec (.writeatPair byte sub len src pat) s = .next (responded (okResponse 0) (cursorAt s.extent s))) ∧
    (GoodSource src pat → byte.toNat < 2 ^ 29 → 1 ≤ L → 8 * s.params.capBytes.val < start + L →
      exec (.writeatPair byte sub len src pat) s = .next (responded (faultResponse .capacityExceeded) s)) ∧
    (GoodSource src pat → byte.toNat < 2 ^ 29 → 1 ≤ L → start + L ≤ 8 * s.params.capBytes.val →
      ∃ t, exec (.writeatPair byte sub len src pat) s = .next t ∧
        WriteDone start L pat (max s.extent.toNat (start + L)) s t)

/-- 43_bounded_write.md R173 (decisions D17, D20): WRITERANGE, every case in its order of precedence; a degenerate range writes
nothing and still puts the cursor at `EXTENT`. -/
def Obligations.WriterangeFollowsItsRule : Prop :=
  ∀ (s : State) (start stop : Word) (src : SourceTag) (pat : Pattern), s.storage.wf = true →
    (¬ GoodSource src pat →
      exec (.writerange start stop src pat) s = .next (responded (faultResponse .typeMismatch) s)) ∧
    (GoodSource src pat → stop.toNat ≤ start.toNat →
      exec (.writerange start stop src pat) s = .next (responded (okResponse 0) (cursorAt s.extent s))) ∧
    (GoodSource src pat → start.toNat < stop.toNat → 8 * s.params.capBytes.val < stop.toNat →
      exec (.writerange start stop src pat) s = .next (responded (faultResponse .capacityExceeded) s)) ∧
    (GoodSource src pat → start.toNat < stop.toNat → stop.toNat ≤ 8 * s.params.capBytes.val →
      ∃ t, exec (.writerange start stop src pat) s = .next t ∧
        WriteDone start.toNat (stop.toNat - start.toNat) pat (max s.extent.toNat stop.toNat) s t)

/-- 20_memory.md R45, 41_writer.md R139: no write command changes a bit outside its window; one that faults and one of length
0 change no bit at all. -/
def Obligations.WritesStayInsideTheirWindow : Prop :=
  ∀ (i : Instr) (s t : State) (start L : Nat), s.storage.wf = true → writeTarget i s = some (start, L) →
    exec i s = .next t →
      (∀ o, (o < start ∨ start + L ≤ o) → bitRead o t = bitRead o s) ∧
      (L = 0 → t.storage = s.storage) ∧
      (t.responses ≠ s.responses ++ [okResponse 0] → t.storage = s.storage)

/-- 43_bounded_write.md R174: after a positioned write that does not fault the cursor stands at `EXTENT`, wherever it stood and
whatever the target. -/
def Obligations.PositionedWritesLeaveCursorAtExtent : Prop :=
  ∀ (i : Instr) (s t : State), isPositionedWrite i = true → exec i s = .next t →
    t.responses = s.responses ++ [okResponse 0] → curOff t = t.extent.toNat

/-- 43_bounded_write.md R170: the result of a positioned write that does not fault depends on the old cursor in no way. -/
def Obligations.PositionedWritesIgnoreOldCursor : Prop :=
  ∀ (i : Instr) (s t : State) (b : ByteIndex) (c : SubIndex), isPositionedWrite i = true → exec i s = .next t →
    t.responses = s.responses ++ [okResponse 0] → exec i { s with curByte := b, curSub := c } = .next t

/-- 43_bounded_write.md R175 (derived): with the cursor at `EXTENT`, a patch inside the data leaves the cursor, `EXTENT` and
`LEN_BYTES` as they were and changes only the bits of its window. -/
def Obligations.PatchKeepsAppendPosition : Prop :=
  ∀ (s : State) (pos : Word) (len : Option Word) (src : SourceTag) (pat : Pattern) (L : Nat),
    s.Inv → GoodSource src pat → ResolvedLength len pat L → curOff s = s.extent.toNat →
    pos.toNat + L ≤ s.extent.toNat →
    ∃ t, exec (.writeatAbs pos len src pat) s = .next t ∧ t.responses = s.responses ++ [okResponse 0] ∧
      t.curByte = s.curByte ∧ t.curSub = s.curSub ∧ t.extent = s.extent ∧ t.lenBytes = s.lenBytes ∧
      ∀ o, (o < pos.toNat ∨ pos.toNat + L ≤ o) → bitRead o t = bitRead o s

/-- 41_writer.md R140: running the writer twice from one start leaves the same storage, `EXTENT` and `LEN_BYTES` as once, and a
positioned write repeated changes nothing further but its response. -/
def Obligations.RepeatedWriteChangesNothing : Prop :=
  (∀ (b s L : Nat) (pat : Pattern) (st : State), st.storage.wf = true → s ≤ 7 → 1 ≤ L →
    join b s + L ≤ capBits st.params →
      (writeWindow b s L pat (writeWindow b s L pat st).2).2 = (writeWindow b s L pat st).2) ∧
  (∀ (i : Instr) (s t : State), isPositionedWrite i = true → s.storage.wf = true → exec i s = .next t →
    t.responses = s.responses ++ [okResponse 0] → exec i t = .next (responded (okResponse 0) t))

/-- 41_writer.md R142 (derived): WRITE S1 then WRITE S2 leaves the same storage, `EXTENT`, `LEN_BYTES` and cursor as one WRITE of
S1 ++ S2 One source tag for all three. -/
def Obligations.TwoWritesEqualTheirConcatenation : Prop :=
  ∀ (s : State) (p1 p2 p : Pattern) (src : SourceTag), s.storage.wf = true →
    GoodSource src p1 → GoodSource src p2 → GoodSource src p → symbolsOf p = symbolsOf p1 ++ symbolsOf p2 →
    curOff s + p.plen.toNat ≤ 8 * s.params.capBytes.val →
    ∃ t1 t2 t, exec (.write none src p1) s = .next t1 ∧ exec (.write none src p2) t1 = .next t2 ∧
      exec (.write none src p) s = .next t ∧ SameBlock t t2

/-- 41_writer.md R141 (derived): after a WRITE of L symbols at `start`, READN start, L answers exactly the pattern right-aligned
in L symbols L = 2^31, which READN's signed length cannot express, is left out. -/
def Obligations.WriteThenReadGivesTheWrittenBits : Prop :=
  ∀ (s : State) (len : Option Word) (src : SourceTag) (pat : Pattern) (L : Nat),
    s.Inv → GoodSource src pat → ResolvedLength len pat L → 1 ≤ L → L < 2 ^ 31 →
    curOff s + L ≤ 8 * s.params.capBytes.val →
    ∃ t u r, exec (.write len src pat) s = .next t ∧
      exec (.readn (BitVec.ofNat 32 (curOff s)) (BitVec.ofNat 32 L)) t = .next u ∧
      u.responses = t.responses ++ [r] ∧ r.status = 0 ∧
      r.bits = (List.range L).map (writtenSymbol pat L)

/-- 20_memory.md R40, 00_scope.md R10: offset o is the bit of weight 128 / 2^(o mod 8) of byte o div 8: writing a single one
there sets exactly that bit of that byte. -/
def Obligations.OffsetNamesItsBitOfItsByte : Prop :=
  ∀ (s : State) (o : Word), s.storage.wf = true → o.toNat + 1 ≤ 8 * s.params.capBytes.val →
    ∃ t, exec (.writeatAbs o none .rawBitPattern ⟨1, 1⟩) s = .next t ∧
      memRead (o.toNat / 8) t = memRead (o.toNat / 8) s ||| ((128#8) >>> (o.toNat % 8)) ∧
      ∀ i, i ≠ o.toNat / 8 → memRead i t = memRead i s

/-! ### Reads -/

/-- 42_reader.md R154, R152, R153: READ answers the bits from the cursor to `EXTENT`, empty when the cursor is there or beyond,
and changes nothing. The premise is R25's bound, under which every bit read exists. -/
def Obligations.ReadAnswersFromCursor : Prop :=
  ∀ s : State, s.extent.toNat ≤ 8 * s.params.capBytes.val →
    ∃ r, exec .read s = .next (responded r s) ∧ RangeAnswered (curOff s) (s.extent.toNat - curOff s) s r

/-- 42_reader.md R155 (decisions D16, D17): READFROM answers the bits from its position to `EXTENT` and leaves the cursor at the
position, also when the result is empty. -/
def Obligations.ReadfromAnswersFromPosition : Prop :=
  ∀ (s : State) (pos : Word), s.extent.toNat ≤ 8 * s.params.capBytes.val →
    ∃ r, exec (.readfrom pos) s = .next (responded r (cursorAt pos s)) ∧
      RangeAnswered pos.toNat (s.extent.toNat - pos.toNat) s r

/-- 42_reader.md R156 (decisions D16, D18): READN answers `len` bits, clipped to `EXTENT`, and leaves the cursor at the position;
a negative length is an illegal operand. -/
def Obligations.ReadnAnswersClippedRange : Prop :=
  ∀ (s : State) (pos len : Word), s.extent.toNat ≤ 8 * s.params.capBytes.val →
    (len.toInt < 0 → exec (.readn pos len) s = .next (responded (faultResponse .illegalOperand) s)) ∧
    (0 ≤ len.toInt → ∃ r, exec (.readn pos len) s = .next (responded r (cursorAt pos s)) ∧
      RangeAnswered pos.toNat (min (pos.toNat + len.toNat) s.extent.toNat - pos.toNat) s r)

/-- 42_reader.md R157 (derived): READFROM p equals SETABS p followed by READ; READN p, n answers the first n symbols of what
READFROM p answers. -/
def Obligations.ReadCommandsAgree : Prop :=
  ∀ (s : State) (pos len : Word), s.extent.toNat ≤ 8 * s.params.capBytes.val → 0 ≤ len.toInt →
    ∃ t u v r q, exec (.setabs pos) s = .next t ∧ exec .read t = .next (responded r t) ∧
      exec (.readfrom pos) s = .next u ∧ u = responded r (cursorAt pos s) ∧ SameBlock t u ∧
      exec (.readn pos len) s = .next v ∧ v.responses = s.responses ++ [q] ∧
      q.bits = r.bits.take len.toNat

/-- 70_reset_and_hazards.md R247: two successive READN p, n answer the same; two successive WRITEs land one after the other. -/
def Obligations.BoundedReadsRepeatAndWritesAdvance : Prop :=
  (∀ (s t : State) (pos len : Word), s.extent.toNat ≤ 8 * s.params.capBytes.val →
    exec (.readn pos len) s = .next t → ∃ r, t.responses = s.responses ++ [r] ∧
      exec (.readn pos len) t = .next (responded r t)) ∧
  (∀ (s t : State) (src : SourceTag) (p q : Pattern), s.storage.wf = true → GoodSource src p → GoodSource src q →
    1 ≤ p.plen.toNat → 1 ≤ q.plen.toNat → exec (.write none src p) s = .next t →
    t.responses = s.responses ++ [okResponse 0] →
    curOff s + p.plen.toNat + q.plen.toNat ≤ 8 * s.params.capBytes.val →
    ∃ u, exec (.write none src q) t = .next u ∧
      WriteDone (curOff s + p.plen.toNat) q.plen.toNat q (curOff s + p.plen.toNat + q.plen.toNat) t u)

/-- 00_scope.md R12, 10_state.md R27: a read of a byte that does not exist. The stop is the model's choice (log entry 6); no
state that meets the invariants gets there. -/
def Obligations.ReadPastStorageStops : Prop :=
  ∀ (s : State) (pos len : Word), 8 * s.params.capBytes.val < s.extent.toNat →
    ¬ s.Inv ∧
    (curOff s < s.extent.toNat → exec .read s = .fault (.noSuchByte ((s.extent.toNat - 1) / 8))) ∧
    (pos.toNat < s.extent.toNat → exec (.readfrom pos) s = .fault (.noSuchByte ((s.extent.toNat - 1) / 8))) ∧
    (0 < len.toInt → pos.toNat + len.toNat ≤ s.extent.toNat → 8 * s.params.capBytes.val < pos.toNat + len.toNat →
      exec (.readn pos len) s = .fault (.noSuchByte ((pos.toNat + len.toNat - 1) / 8))) ∧
    (s.params.hasTyped = true → pos.toNat + 32 ≤ s.extent.toNat → 8 * s.params.capBytes.val < pos.toNat + 8 →
      exec (.rdu8 (some pos)) s = .fault (.noSuchByte ((pos.toNat + 8 - 1) / 8)) ∧
      exec (.rdu16 (some pos)) s = .fault (.noSuchByte ((pos.toNat + 16 - 1) / 8)) ∧
      exec (.rdu32 (some pos)) s = .fault (.noSuchByte ((pos.toNat + 32 - 1) / 8)))

/-! ### Typed reads -/

/-- 44_typed_read.md R186 to R189, 60_exceptions.md R218 (decision D22): a typed read answers its W bits as an unsigned number,
most significant bit at the lowest offset; with a position the cursor ends there, without one it stays; with fewer than W
bits left nothing changes. Said for the position `p` that `pos` names and the state `s'` it leaves. -/
def Obligations.TypedReadsFollowTheirRule : Prop :=
  ∀ (s : State) (pos : Option Word) (p : Nat) (s' : State), s.params.hasTyped = true →
    s.extent.toNat ≤ 8 * s.params.capBytes.val →
    (match pos with
      | some a => p = a.toNat ∧ s' = cursorAt a s
      | none => p = curOff s ∧ s' = s) →
    (p + 8 ≤ s.extent.toNat → ∃ v, exec (.rdu8 pos) s = .next (responded (okResponse v) s') ∧
      v.toNat = rangeValue p 8 s ∧ v.toNat ≤ 255) ∧
    (p + 16 ≤ s.extent.toNat → ∃ v, exec (.rdu16 pos) s = .next (responded (okResponse v) s') ∧
      v.toNat = rangeValue p 16 s ∧ v.toNat ≤ 65535) ∧
    (p + 32 ≤ s.extent.toNat → ∃ v, exec (.rdu32 pos) s = .next (responded (okResponse v) s') ∧
      v.toNat = rangeValue p 32 s) ∧
    (s.extent.toNat < p + 8 → exec (.rdu8 pos) s = .next (responded (faultResponse .insufficientData) s)) ∧
    (s.extent.toNat < p + 16 → exec (.rdu16 pos) s = .next (responded (faultResponse .insufficientData) s)) ∧
    (s.extent.toNat < p + 32 → exec (.rdu32 pos) s = .next (responded (faultResponse .insufficientData) s))

/-- 30_encoding.md R77, 60_exceptions.md R220 (decisions D22, D24): without `HAS_TYPED` no header with a typed read's `OP`
decodes. The three clauses about exec are the model's choice, not the rules' (log entry 8, DEDUCED): the meaning refuses a
second time, on a path no command word reaches. -/
def Obligations.TypedReadsAbsentAreIllegal : Prop :=
  ∀ (s : State) (c : Command) (pos : Option Word), s.params.hasTyped = false →
    (hdrOp c.hdr = 0x40 ∨ hdrOp c.hdr = 0x41 ∨ hdrOp c.hdr = 0x42 → ∃ e, decode s.params c = .error e) ∧
    exec (.rdu8 pos) s = .next (responded (faultResponse .illegalCommand) s) ∧
    exec (.rdu16 pos) s = .next (responded (faultResponse .illegalCommand) s) ∧
    exec (.rdu32 pos) s = .next (responded (faultResponse .illegalCommand) s)

/-- 44_typed_read.md R190 (derived): a typed read that succeeds answers the value of what READN p, W answers, and after
WRITEAT.ABS bits_W(v), p it answers v. R190's other writes that cover the range are not
said here. -/
def Obligations.TypedReadsAgreeWithReadnAndWrites : Prop :=
  ∀ (s : State) (a v : Word), s.params.hasTyped = true → s.Inv →
    (∀ t, exec (.rdu8 (some a)) s = .next (responded (okResponse v) t) →
      ∃ u r, exec (.readn a 8) s = .next u ∧ u.responses = s.responses ++ [r] ∧ val r.bits = v.toNat) ∧
    (∀ t, exec (.rdu16 (some a)) s = .next (responded (okResponse v) t) →
      ∃ u r, exec (.readn a 16) s = .next u ∧ u.responses = s.responses ++ [r] ∧ val r.bits = v.toNat) ∧
    (∀ t, exec (.rdu32 (some a)) s = .next (responded (okResponse v) t) →
      ∃ u r, exec (.readn a 32) s = .next u ∧ u.responses = s.responses ++ [r] ∧ val r.bits = v.toNat) ∧
    (v.toNat < 2 ^ 8 → a.toNat + 8 ≤ 8 * s.params.capBytes.val →
      ∃ t u, exec (.writeatAbs a none .rawBitPattern ⟨8, v.setWidth 64⟩) s = .next t ∧
        exec (.rdu8 (some a)) t = .next (responded (okResponse v) u)) ∧
    (v.toNat < 2 ^ 16 → a.toNat + 16 ≤ 8 * s.params.capBytes.val →
      ∃ t u, exec (.writeatAbs a none .rawBitPattern ⟨16, v.setWidth 64⟩) s = .next t ∧
        exec (.rdu16 (some a)) t = .next (responded (okResponse v) u)) ∧
    (a.toNat + 32 ≤ 8 * s.params.capBytes.val →
      ∃ t u, exec (.writeatAbs a none .rawBitPattern ⟨32, v.setWidth 64⟩) s = .next t ∧
        exec (.rdu32 (some a)) t = .next (responded (okResponse v) u))

/-! ### Construction -/

/-- 45_system.md R200 to R202 (decisions D13, D14, D15): INIT zeroes all of storage, sets `LEN_BYTES` to the length rounded up to
whole bytes, `EXTENT` by `INIT_EXTENT_MODE`, the cursor to 0 and `ENDIAN` to its flag; a length above `CAP_BITS` is refused. -/
def Obligations.InitConstructsAnEmptyBuffer : Prop :=
  ∀ (s : State) (e : Endian) (n : Word),
    (n.toNat ≤ 8 * s.params.capBytes.val →
      ∃ t, exec (.init e n) s = .next t ∧ (∀ i, memRead i t = 0) ∧ t.storage = [] ∧
        t.lenBytes.toNat = (n.toNat + 7) / 8 ∧
        (s.params.initExtentMode = .rounded → t.extent.toNat = 8 * ((n.toNat + 7) / 8)) ∧
        (s.params.initExtentMode = .zero → t.extent.toNat = 0) ∧
        t.curByte = 0 ∧ t.curSub = 0 ∧ t.endian = e ∧ t.params = s.params ∧ t.inputs = s.inputs ∧
        t.responses = s.responses ++ [okResponse 0]) ∧
    (8 * s.params.capBytes.val < n.toNat →
      exec (.init e n) s = .next { s with responses := s.responses ++ [⟨6, 0, []⟩] })

/-- 70_reset_and_hazards.md R241 (derived): INIT 0, BE leaves the reset state, in both values of `INIT_EXTENT_MODE`, and so does
`RST`. -/
def Obligations.InitZeroEqualsReset : Prop :=
  ∀ s : State, ∃ t, exec (.init .big 0) s = .next t ∧ SameBlock State.reset t ∧
    ∃ u, applyRst s = .next u ∧ SameBlock t u
end

