-- ==== Sys2Proof/Laws/Decode.lean ====
section
/-! SUPPORT. The header's fields and the selection of a row (spec/30_encoding.md R61, R75), for the decoder and the encoder. -/

namespace Sys2Proof

/-- Bit i of a packed header (R61). -/
theorem getLsbD_packHdr (op : Byte) (hl hp : Bool) (src : BitVec 2) (e : Bool) (sub : Byte) {i : Nat} (hi : i < 32) :
    (packHdr op hl hp src e sub).getLsbD i =
      if i < 8 then op.getLsbD i
      else if i = 8 then hl
      else if i = 9 then hp
      else if i < 12 then src.getLsbD (i - 10)
      else if i = 12 then e
      else if 16 ≤ i then sub.getLsbD (i - 16)
      else false := by
  unfold packHdr
  simp only [BitVec.getLsbD_or, BitVec.getLsbD_shiftLeft, BitVec.getLsbD_setWidth, BitVec.getLsbD_ofBool, hi,
    decide_true, Bool.true_and]
  interval_cases i <;> simp

theorem hdrHl_packHdr (op : Byte) (hl hp : Bool) (src : BitVec 2) (e : Bool) (sub : Byte) :
    hdrHl (packHdr op hl hp src e sub) = hl := by
  unfold hdrHl
  rw [getLsbD_packHdr _ _ _ _ _ _ (by decide)]
  simp

theorem hdrHp_packHdr (op : Byte) (hl hp : Bool) (src : BitVec 2) (e : Bool) (sub : Byte) :
    hdrHp (packHdr op hl hp src e sub) = hp := by
  unfold hdrHp
  rw [getLsbD_packHdr _ _ _ _ _ _ (by decide)]
  simp

theorem hdrEBit_packHdr (op : Byte) (hl hp : Bool) (src : BitVec 2) (e : Bool) (sub : Byte) :
    hdrEBit (packHdr op hl hp src e sub) = e := by
  unfold hdrEBit
  rw [getLsbD_packHdr _ _ _ _ _ _ (by decide)]
  simp

theorem hdrSub_packHdr (op : Byte) (hl hp : Bool) (src : BitVec 2) (e : Bool) (sub : Byte) :
    hdrSub (packHdr op hl hp src e sub) = sub := by
  apply BitVec.eq_of_getLsbD_eq
  intro i hi
  unfold hdrSub
  rw [BitVec.getLsbD_extractLsb', getLsbD_packHdr _ _ _ _ _ _ (by omega)]
  rw [if_neg (by omega), if_neg (by omega), if_neg (by omega), if_neg (by omega), if_neg (by omega), if_pos (by omega)]
  simp [hi]

theorem hdrSrcBits_packHdr (op : Byte) (hl hp : Bool) (src : BitVec 2) (e : Bool) (sub : Byte) :
    hdrSrcBits (packHdr op hl hp src e sub) = src := by
  apply BitVec.eq_of_getLsbD_eq
  intro i hi
  unfold hdrSrcBits
  rw [BitVec.getLsbD_extractLsb', getLsbD_packHdr _ _ _ _ _ _ (by omega)]
  rw [if_neg (by omega), if_neg (by omega), if_neg (by omega), if_pos (by omega)]
  simp [hi]

theorem SourceTag.ofBits_toBits (t : SourceTag) : SourceTag.ofBits t.toBits = t := by cases t <;> rfl

theorem Endian.ofBit_toBit (e : Endian) : Endian.ofBit e.toBit = e := by cases e <;> rfl

end Sys2Proof
end

