-- ==== Sys2Proof/Laws/Operands.lean ====
section
/-! SUPPORT. The laws of the pure functions: bit-strings, the converter, the chunk arithmetic, the operand forms. -/

namespace Sys2Proof.Machine

/-! ### Bit-strings -/

@[simp] theorem val_nil : val [] = 0 := rfl

theorem val_concat (S : BitString) (x : Bool) : val (S ++ [x]) = 2 * val S + x.toNat := by
  simp [val, List.foldl_append]

@[simp] theorem length_bitsOf (n v : Nat) : (bitsOf n v).length = n := by simp [bitsOf]

@[simp] theorem getElem_bitsOf (n v i : Nat) (h : i < (bitsOf n v).length) :
    (bitsOf n v)[i] = v.testBit (n - 1 - i) := by simp [bitsOf]

/-- Bit k of the number a bit-string denotes is its k-th symbol from the end. -/
theorem testBit_val (S : BitString) (k : Nat) : (val S).testBit k = S.reverse.getD k false := by
  induction S using List.reverseRecOn generalizing k with
  | nil => simp
  | append_singleton S x ih =>
    rw [val_concat]
    cases k with
    | zero =>
      cases x <;> simp
    | succ k =>
      rw [Nat.testBit_add_one]
      have h2 : (2 * val S + x.toNat) / 2 = val S := by cases x <;> simp; omega
      rw [h2, ih]
      simp

theorem val_lt (S : BitString) : val S < 2 ^ S.length := by
  induction S using List.reverseRecOn with
  | nil => simp
  | append_singleton S x ih =>
    rw [val_concat, List.length_append, List.length_singleton, Nat.pow_succ]
    cases x <;> simp <;> omega

/-- A bit-string is the bits of its value. -/
theorem bitsOf_val (S : BitString) : bitsOf S.length (val S) = S := by
  apply List.ext_getElem
  · simp
  · intro i h1 h2
    rw [getElem_bitsOf, testBit_val]
    rw [List.getD_eq_getElem?_getD, List.getElem?_reverse (by omega)]
    have : S.length - 1 - (S.length - 1 - i) = i := by omega
    rw [this, List.getElem?_eq_getElem h2]
    rfl

/-- The value of the n bits of a number below 2^n is that number. -/
theorem val_bitsOf {n v : Nat} (h : v < 2 ^ n) : val (bitsOf n v) = v := by
  apply Nat.eq_of_testBit_eq
  intro k
  rw [testBit_val, List.getD_eq_getElem?_getD]
  by_cases hk : k < n
  · rw [List.getElem?_reverse (by simpa using hk), length_bitsOf, List.getElem?_eq_getElem (by simp; omega)]
    simp only [getElem_bitsOf, Option.getD_some]
    congr 1
    omega
  · rw [List.getElem?_eq_none (by simp; omega)]
    simp only [Option.getD_none]
    symm
    apply Nat.testBit_lt_two_pow
    exact Nat.lt_of_lt_of_le h (Nat.pow_le_pow_right (by decide) (by omega))

/-! ### The converter and the chunk arithmetic -/

theorem chunk_pos {s rem : Nat} (hs : s ≤ 7) (hr : 1 ≤ rem) : 1 ≤ chunk s rem := by unfold chunk; omega
theorem chunk_le_byte (s rem : Nat) : chunk s rem ≤ 8 - s := by unfold chunk; omega
theorem chunk_le_rem (s rem : Nat) : chunk s rem ≤ rem := by unfold chunk; omega

theorem stepPair_join {b s n : Nat} (hn : n ≤ 8 - s) (hs : s ≤ 7) :
    join (stepPair b s n).1 (stepPair b s n).2 = join b s + n := by
  unfold stepPair join
  split <;> simp <;> omega

theorem stepPair_sub {b s n : Nat} : (stepPair b s n).2 ≤ 7 := by
  unfold stepPair
  split <;> simp; omega

theorem split_of_join {b s : Nat} (hs : s ≤ 7) : split (join b s) = (b, s) := by
  unfold split join
  rw [Prod.mk.injEq]
  omega

/-- Bit k of a mask (R106): set exactly for the sub-bit indexes s to s + n - 1. -/
theorem getLsbD_mask {s n : Nat} (hn : n ≤ 8 - s) (k : Nat) :
    (mask s n).getLsbD k = decide (8 - s - n ≤ k ∧ k < 8 - s) := by
  unfold mask
  rw [BitVec.getLsbD_ofNat, Nat.testBit_shiftLeft, Nat.testBit_two_pow_sub_one, Bool.eq_iff_iff]
  simp only [Bool.and_eq_true, decide_eq_true_eq]
  omega

/-- Bit k of a merge (R106): the value's bit inside the chunk, the old bit outside. -/
theorem getLsbD_merge {s n v : Nat} (old : Byte) (hn : n ≤ 8 - s) (hv : v < 2 ^ n) {k : Nat} (hk : k < 8) :
    (merge old s n v).getLsbD k =
      if 8 - s - n ≤ k ∧ k < 8 - s then v.testBit (k - (8 - s - n)) else old.getLsbD k := by
  unfold merge
  rw [BitVec.getLsbD_or, BitVec.getLsbD_and, BitVec.getLsbD_not, getLsbD_mask hn, BitVec.getLsbD_ofNat,
    Nat.testBit_shiftLeft]
  by_cases h1 : 8 - s - n ≤ k
  · by_cases h2 : k < 8 - s
    · simp [h1, h2, hk]
    · have hz : v.testBit (k - (8 - s - n)) = false := by
        apply Nat.testBit_lt_two_pow
        exact Nat.lt_of_lt_of_le hv (Nat.pow_le_pow_right (by decide) (by omega))
      simp [h1, h2, hk, hz]
  · simp [h1, hk]

/-- Bit k of an extract (R106). -/
theorem testBit_extract (byte : Byte) (s n k : Nat) :
    (extract byte s n).testBit k = (byte.getLsbD (8 - s - n + k) && decide (k < n)) := by
  unfold extract
  rw [Nat.testBit_and, Nat.testBit_shiftRight, Nat.testBit_two_pow_sub_one]
  rfl

theorem extract_lt (byte : Byte) (s n : Nat) : extract byte s n < 2 ^ n := by
  unfold extract
  have := Nat.and_le_right (n := byte.toNat >>> (8 - s - n)) (m := 2 ^ n - 1)
  have := Nat.two_pow_pos n
  omega

/-! ### Operand forms -/

@[simp] theorem length_symbolsOf (p : Pattern) : (symbolsOf p).length = p.plen.toNat := by simp [symbolsOf]

@[simp] theorem getElem_symbolsOf (p : Pattern) (i : Nat) (h : i < (symbolsOf p).length) :
    (symbolsOf p)[i] = p.pdata.getLsbD (p.plen.toNat - 1 - i) := by simp [symbolsOf]

@[simp] theorem length_rightAlign (L : Nat) (S : BitString) : (rightAlign L S).length = L := by
  unfold rightAlign
  split <;> simp <;> omega

/-- R132: symbol i of `S` right-aligned in `L` symbols. -/
theorem getD_rightAlign (L : Nat) (S : BitString) (i : Nat) :
    (rightAlign L S).getD i false = if L ≤ S.length + i then S.getD (S.length + i - L) false else false := by
  unfold rightAlign
  simp only [List.getD_eq_getElem?_getD]
  split
  · rename_i hL
    rw [if_pos (by omega), List.getElem?_drop]
    congr 2
    omega
  · rename_i hL
    rw [List.getElem?_append, List.length_replicate]
    split
    · rw [if_neg (by omega), List.getElem?_replicate]
      split <;> rfl
    · rw [if_pos (by omega)]
      congr 2
      omega

/-- The written value on the wires (R132): symbol i is bit L - 1 - i of the pattern, 0 where the pattern has none. -/
theorem getD_window (L : Nat) (p : Pattern) {i : Nat} (hi : i < L) :
    (rightAlign L (symbolsOf p)).getD i false =
      (decide (L - 1 - i < p.plen.toNat) && p.pdata.getLsbD (L - 1 - i)) := by
  rw [getD_rightAlign L _ i, length_symbolsOf]
  split
  · rename_i hL
    rw [List.getD_eq_getElem?_getD, List.getElem?_eq_getElem (by simp; omega), Option.getD_some, getElem_symbolsOf]
    have h1 : p.plen.toNat - 1 - (p.plen.toNat + i - L) = L - 1 - i := by omega
    have h2 : L - 1 - i < p.plen.toNat := by omega
    simp [h1, h2]
  · rename_i hL
    have h2 : ¬ L - 1 - i < p.plen.toNat := by omega
    simp [h2]

end Sys2Proof.Machine
end

