-- ==== Sys2Proof/Laws/State.lean ====
section
/-! SUPPORT. What each register, storage and port update does to each field of State, one lemma per field per update. -/

namespace Sys2Proof.Machine

@[simp] theorem setCursor_curByte (p : Nat × Nat) (s : State) : (setCursor p s).curByte = BitVec.ofNat 29 p.1 := rfl
@[simp] theorem setCursor_curSub (p : Nat × Nat) (s : State) : (setCursor p s).curSub = BitVec.ofNat 3 p.2 := rfl
@[simp] theorem setCursor_extent (p : Nat × Nat) (s : State) : (setCursor p s).extent = s.extent := rfl
@[simp] theorem setCursor_lenBytes (p : Nat × Nat) (s : State) : (setCursor p s).lenBytes = s.lenBytes := rfl
@[simp] theorem setCursor_endian (p : Nat × Nat) (s : State) : (setCursor p s).endian = s.endian := rfl
@[simp] theorem setCursor_storage (p : Nat × Nat) (s : State) : (setCursor p s).storage = s.storage := rfl
@[simp] theorem setCursor_params (p : Nat × Nat) (s : State) : (setCursor p s).params = s.params := rfl
@[simp] theorem setCursor_inputs (p : Nat × Nat) (s : State) : (setCursor p s).inputs = s.inputs := rfl
@[simp] theorem setCursor_responses (p : Nat × Nat) (s : State) : (setCursor p s).responses = s.responses := rfl

@[simp] theorem raiseExtent_curByte (e : Nat) (s : State) : (raiseExtent e s).curByte = s.curByte := rfl
@[simp] theorem raiseExtent_curSub (e : Nat) (s : State) : (raiseExtent e s).curSub = s.curSub := rfl
@[simp] theorem raiseExtent_extent (e : Nat) (s : State) : (raiseExtent e s).extent = BitVec.ofNat 32 (max s.extent.toNat e) := rfl
@[simp] theorem raiseExtent_lenBytes (e : Nat) (s : State) : (raiseExtent e s).lenBytes = s.lenBytes := rfl
@[simp] theorem raiseExtent_endian (e : Nat) (s : State) : (raiseExtent e s).endian = s.endian := rfl
@[simp] theorem raiseExtent_storage (e : Nat) (s : State) : (raiseExtent e s).storage = s.storage := rfl
@[simp] theorem raiseExtent_params (e : Nat) (s : State) : (raiseExtent e s).params = s.params := rfl
@[simp] theorem raiseExtent_inputs (e : Nat) (s : State) : (raiseExtent e s).inputs = s.inputs := rfl
@[simp] theorem raiseExtent_responses (e : Nat) (s : State) : (raiseExtent e s).responses = s.responses := rfl

@[simp] theorem memWrite_curByte (i : Nat) (v : Byte) (s : State) : (memWrite i v s).curByte = s.curByte := rfl
@[simp] theorem memWrite_curSub (i : Nat) (v : Byte) (s : State) : (memWrite i v s).curSub = s.curSub := rfl
@[simp] theorem memWrite_extent (i : Nat) (v : Byte) (s : State) : (memWrite i v s).extent = s.extent := rfl
@[simp] theorem memWrite_lenBytes (i : Nat) (v : Byte) (s : State) : (memWrite i v s).lenBytes = BitVec.ofNat 30 (max s.lenBytes.toNat (i + 1)) := rfl
@[simp] theorem memWrite_endian (i : Nat) (v : Byte) (s : State) : (memWrite i v s).endian = s.endian := rfl
@[simp] theorem memWrite_storage (i : Nat) (v : Byte) (s : State) : (memWrite i v s).storage = s.storage.write i v := rfl
@[simp] theorem memWrite_params (i : Nat) (v : Byte) (s : State) : (memWrite i v s).params = s.params := rfl
@[simp] theorem memWrite_inputs (i : Nat) (v : Byte) (s : State) : (memWrite i v s).inputs = s.inputs := rfl
@[simp] theorem memWrite_responses (i : Nat) (v : Byte) (s : State) : (memWrite i v s).responses = s.responses := rfl

@[simp] theorem deliver_curByte (r : Response) (s : State) : (deliver r s).curByte = s.curByte := rfl
@[simp] theorem deliver_curSub (r : Response) (s : State) : (deliver r s).curSub = s.curSub := rfl
@[simp] theorem deliver_extent (r : Response) (s : State) : (deliver r s).extent = s.extent := rfl
@[simp] theorem deliver_lenBytes (r : Response) (s : State) : (deliver r s).lenBytes = s.lenBytes := rfl
@[simp] theorem deliver_endian (r : Response) (s : State) : (deliver r s).endian = s.endian := rfl
@[simp] theorem deliver_storage (r : Response) (s : State) : (deliver r s).storage = s.storage := rfl
@[simp] theorem deliver_params (r : Response) (s : State) : (deliver r s).params = s.params := rfl
@[simp] theorem deliver_inputs (r : Response) (s : State) : (deliver r s).inputs = s.inputs := rfl
@[simp] theorem deliver_responses (r : Response) (s : State) : (deliver r s).responses = s.responses ++ [r] := rfl

@[simp] theorem setEndian_curByte (e : Endian) (s : State) : (setEndian e s).curByte = s.curByte := rfl
@[simp] theorem setEndian_curSub (e : Endian) (s : State) : (setEndian e s).curSub = s.curSub := rfl
@[simp] theorem setEndian_extent (e : Endian) (s : State) : (setEndian e s).extent = s.extent := rfl
@[simp] theorem setEndian_lenBytes (e : Endian) (s : State) : (setEndian e s).lenBytes = s.lenBytes := rfl
@[simp] theorem setEndian_endian (e : Endian) (s : State) : (setEndian e s).endian = e := rfl
@[simp] theorem setEndian_storage (e : Endian) (s : State) : (setEndian e s).storage = s.storage := rfl
@[simp] theorem setEndian_params (e : Endian) (s : State) : (setEndian e s).params = s.params := rfl
@[simp] theorem setEndian_inputs (e : Endian) (s : State) : (setEndian e s).inputs = s.inputs := rfl
@[simp] theorem setEndian_responses (e : Endian) (s : State) : (setEndian e s).responses = s.responses := rfl

@[simp] theorem presentCommand_curByte (c : Command) (s : State) : (presentCommand c s).curByte = s.curByte := rfl
@[simp] theorem presentCommand_curSub (c : Command) (s : State) : (presentCommand c s).curSub = s.curSub := rfl
@[simp] theorem presentCommand_extent (c : Command) (s : State) : (presentCommand c s).extent = s.extent := rfl
@[simp] theorem presentCommand_lenBytes (c : Command) (s : State) : (presentCommand c s).lenBytes = s.lenBytes := rfl
@[simp] theorem presentCommand_endian (c : Command) (s : State) : (presentCommand c s).endian = s.endian := rfl
@[simp] theorem presentCommand_storage (c : Command) (s : State) : (presentCommand c s).storage = s.storage := rfl
@[simp] theorem presentCommand_params (c : Command) (s : State) : (presentCommand c s).params = s.params := rfl
@[simp] theorem presentCommand_inputs (c : Command) (s : State) : (presentCommand c s).inputs = .command c :: s.inputs := rfl
@[simp] theorem presentCommand_responses (c : Command) (s : State) : (presentCommand c s).responses = s.responses := rfl

@[simp] theorem deliver_curOff (r : Response) (s : State) : curOff (deliver r s) = curOff s := rfl
@[simp] theorem deliver_memRead (r : Response) (s : State) (i : Nat) : memRead i (deliver r s) = memRead i s := rfl
@[simp] theorem deliver_bitRead (r : Response) (s : State) (o : Nat) : bitRead o (deliver r s) = bitRead o s := rfl
@[simp] theorem setCursor_memRead (p : Nat × Nat) (s : State) (i : Nat) : memRead i (setCursor p s) = memRead i s := rfl
@[simp] theorem setCursor_bitRead (p : Nat × Nat) (s : State) (o : Nat) : bitRead o (setCursor p s) = bitRead o s := rfl
@[simp] theorem raiseExtent_memRead (e : Nat) (s : State) (i : Nat) : memRead i (raiseExtent e s) = memRead i s := rfl
@[simp] theorem raiseExtent_bitRead (e : Nat) (s : State) (o : Nat) : bitRead o (raiseExtent e s) = bitRead o s := rfl

end Sys2Proof.Machine
end

