-- ==== Sys2Proof/Laws/Reader.lean ====
section
/-! SUPPORT. What the reader core can answer (spec/42_reader.md R151 to R153) and what its beats carry (spec/30_encoding.md R72). -/

namespace Sys2Proof.Machine

/-- One chunk is the bits of its part of the range (R151, R40). -/
theorem readChunk_eq {pos stop b : Nat} (s : State) (h1 : pos < 8 * b + 8) (h2 : 8 * b < stop) (h3 : pos < stop) :
    readChunk pos stop s b =
      (List.range (min stop (8 * b + 8) - max pos (8 * b))).map (fun i => bitRead (max pos (8 * b) + i) s) := by
  unfold readChunk
  apply List.ext_getElem
  · simp
  · intro i hi _
    simp only [length_bitsOf] at hi
    simp only [getElem_bitsOf, List.getElem_map, List.getElem_range, bitRead]
    rw [testBit_extract]
    have hq : (max pos (8 * b) + i) / 8 = b := by omega
    have hlt : min stop (8 * b + 8) - max pos (8 * b) - 1 - i < min stop (8 * b + 8) - max pos (8 * b) := by omega
    rw [hq, decide_eq_true hlt, Bool.and_true]
    congr 1
    omega

/-- The first m chunks together are the bits up to the end of the m-th byte visited. -/
theorem flatten_readChunks (pos stop : Nat) (s : State) (h : pos < stop) (m : Nat) (hm : 8 * (pos / 8 + m) < stop + 8) :
    ((List.range' (pos / 8) m).map (readChunk pos stop s)).flatten =
      (List.range (min stop (8 * (pos / 8 + m)) - pos)).map (fun i => bitRead (pos + i) s) := by
  induction m with
  | zero =>
    have : min stop (8 * (pos / 8)) - pos = 0 := by omega
    simp [this]
  | succ m ih =>
    rw [List.range'_1_concat, List.map_append, List.flatten_append, ih (by omega)]
    simp only [List.map_cons, List.map_nil, List.flatten_cons, List.flatten_nil, List.append_nil]
    rw [readChunk_eq s (by omega) (by omega) h]
    have hsum : min stop (8 * (pos / 8 + (m + 1))) - pos =
        (min stop (8 * (pos / 8 + m)) - pos) + (min stop (8 * (pos / 8 + m) + 8) - max pos (8 * (pos / 8 + m))) := by
      omega
    rw [hsum, List.range_add, List.map_append, List.map_map]
    congr 1
    apply List.map_congr_left
    intro i hi
    simp only [List.mem_range] at hi
    simp only [Function.comp]
    congr 1
    omega

/-- R153, the closed form: the bits of [pos, min(req, EXTENT)) at ascending offsets. -/
theorem readerCore_flatten (pos req : Nat) (s : State) :
    (readerCore pos req s).flatten =
      (List.range (min req s.extent.toNat - pos)).map (fun i => bitRead (pos + i) s) := by
  unfold readerCore
  dsimp only
  split
  · rename_i h
    have : min req s.extent.toNat - pos = 0 := by omega
    simp [this]
  · rename_i h
    rw [flatten_readChunks _ _ _ (by omega) _ (by omega)]
    congr 2
    omega

/-- R153: one chunk per byte visited. -/
theorem readerCore_length (pos req : Nat) (s : State) :
    (readerCore pos req s).length =
      if min req s.extent.toNat - pos = 0 then 0
      else (pos + (min req s.extent.toNat - pos) - 1) / 8 - pos / 8 + 1 := by
  unfold readerCore
  dsimp only
  split
  · rename_i h
    rw [if_pos (by omega)]
    rfl
  · rename_i h
    rw [if_neg (by omega)]
    simp only [List.length_map, List.length_range']
    omega

/-- R72: every chunk has 1 to 8 symbols. -/
theorem readerCore_chunk {pos req : Nat} {s : State} {C : BitString} (h : C ∈ readerCore pos req s) :
    1 ≤ C.length ∧ C.length ≤ 8 := by
  unfold readerCore at h
  dsimp only at h
  split at h
  · simp at h
  · rename_i hlt
    obtain ⟨b, hb, rfl⟩ := List.mem_map.1 h
    rw [List.mem_range'_1] at hb
    rw [readChunk_eq s (by omega) (by omega) (by omega)]
    simp
    omega

/-- Where the range lies in storage, the reader answers the core's chunks. -/
theorem readRange_ok {pos req : Nat} {s : State} (h : s.extent.toNat ≤ capBits s.params) :
    readRange pos req s = .ok (readerCore pos req s) := by
  unfold readRange
  rw [if_neg]
  omega

@[simp] theorem length_beatsOf (chunks : List BitString) : (beatsOf chunks).length = chunks.length := by
  induction chunks with
  | nil => rfl
  | cons C rest ih => simp [beatsOf, ih]

/-- R72: the beats' chunks, put together, are the result. -/
theorem bits_beatsOf {chunks : List BitString} (h : ∀ C ∈ chunks, C.length ≤ 8) :
    ((beatsOf chunks).map (fun b => bitsOf b.cbLen.toNat b.cbBits.toNat)).flatten = chunks.flatten := by
  induction chunks with
  | nil => rfl
  | cons C rest ih =>
    have hC := h C (by simp)
    have hv := val_lt C
    have hv8 : val C < 2 ^ 8 := Nat.lt_of_lt_of_le hv (Nat.pow_le_pow_right (by decide) hC)
    simp only [beatsOf, List.map_cons, List.flatten_cons]
    rw [ih (fun D hD => h D (by simp [hD])), BitVec.toNat_ofNat, BitVec.toNat_ofNat, Nat.mod_eq_of_lt (by omega),
      Nat.mod_eq_of_lt hv8, bitsOf_val]

/-- R72: a beat's length and right-aligned bits. -/
theorem mem_beatsOf {chunks : List BitString} (h : ∀ C ∈ chunks, 1 ≤ C.length ∧ C.length ≤ 8) {b : Beat}
    (hb : b ∈ beatsOf chunks) : 1 ≤ b.cbLen.toNat ∧ b.cbLen.toNat ≤ 8 ∧ b.cbBits.toNat < 2 ^ b.cbLen.toNat := by
  induction chunks with
  | nil => simp [beatsOf] at hb
  | cons C rest ih =>
    rcases List.mem_cons.1 hb with rfl | hb
    · obtain ⟨h1, h2⟩ := h C (by simp)
      have hv := val_lt C
      have hv8 : val C < 2 ^ 8 := Nat.lt_of_lt_of_le hv (Nat.pow_le_pow_right (by decide) h2)
      have hl : (BitVec.ofNat 4 C.length).toNat = C.length := by
        rw [BitVec.toNat_ofNat, Nat.mod_eq_of_lt (by omega)]
      simp only [hl]
      rw [BitVec.toNat_ofNat, Nat.mod_eq_of_lt hv8]
      exact ⟨h1, h2, hv⟩
    · exact ih (fun D hD => h D (by simp [hD])) hb

/-- R72: `CB_LAST` is 1 on the last beat only. -/
theorem last_beatsOf (chunks : List BitString) (k : Nat) (h : k < (beatsOf chunks).length) :
    ((beatsOf chunks)[k]).cbLast = decide (k + 1 = (beatsOf chunks).length) := by
  induction chunks generalizing k with
  | nil => simp [beatsOf] at h
  | cons C rest ih =>
    cases k with
    | zero => cases rest <;> simp [beatsOf]
    | succ k =>
      simp only [beatsOf, List.length_cons, Nat.add_lt_add_iff_right] at h
      simp only [beatsOf, List.getElem_cons_succ, List.length_cons]
      rw [ih k h]
      simp

/-- The bit-string the reader core reads, as a number, most significant symbol first (R9). -/
theorem val_range_map (f : Nat → Bool) (w : Nat) :
    val ((List.range w).map f) = ((List.range w).map (fun i => (f i).toNat * 2 ^ (w - 1 - i))).sum := by
  induction w with
  | zero => rfl
  | succ w ih =>
    rw [List.range_succ, List.map_append, List.map_cons, List.map_nil, val_concat, ih, List.map_append,
      List.sum_append]
    have : (List.map (fun i => (f i).toNat * 2 ^ (w + 1 - 1 - i)) (List.range w)).sum =
        2 * (List.map (fun i => (f i).toNat * 2 ^ (w - 1 - i)) (List.range w)).sum := by
      rw [← List.sum_map_mul_left]
      congr 1
      apply List.map_congr_left
      intro i hi
      simp only [List.mem_range] at hi
      have : w + 1 - 1 - i = (w - 1 - i) + 1 := by omega
      rw [this, Nat.pow_succ, Nat.mul_comm 2, Nat.mul_assoc]
    rw [this]
    simp

end Sys2Proof.Machine
end

