-- ==== Sys2Proof/Laws/Memory.lean ====
section
/-! SUPPORT. The laws of one byte of storage: read after write, and the canonical form. -/

namespace Sys2Proof.Machine

theorem Memory.wf_cons {c : Host.Cell} {m : Memory} :
    Memory.wf (c :: m) = true ↔ c.2 ≠ unlistedByte ∧ (∀ d ∈ m, c.1 < d.1) ∧ Memory.wf m = true := by
  simp [Memory.wf, List.all_eq_true, and_assoc]

theorem Memory.read_write_other {i j : Nat} (h : j ≠ i) (v : Byte) (m : Memory) :
    Memory.read (Memory.write m i v) j = Memory.read m j := by
  induction m with
  | nil =>
    unfold Memory.write
    split
    · rfl
    · simp [Memory.read, Ne.symm h]
  | cons c m ih =>
    unfold Memory.write
    split
    · split
      · rfl
      · simp [Memory.read, Ne.symm h]
    · split
      · rename_i hc
        split <;> simp [Memory.read, hc, Ne.symm h]
      · simp [Memory.read, ih]

/-- Below every listed index nothing is listed. -/
theorem Memory.read_unlisted {m : Memory} {i : Nat} (h : ∀ d ∈ m, d.1 ≠ i) : Memory.read m i = unlistedByte := by
  induction m with
  | nil => rfl
  | cons c m ih =>
    have hc : c.1 ≠ i := h c (by simp)
    simp only [Memory.read, hc, if_false]
    exact ih (fun d hd => h d (by simp [hd]))

theorem Memory.read_write_same {m : Memory} (hm : Memory.wf m = true) (i : Nat) (v : Byte) :
    Memory.read (Memory.write m i v) i = v := by
  induction m with
  | nil =>
    unfold Memory.write
    split
    · rename_i hv; simp [Memory.read, hv]
    · simp [Memory.read]
  | cons c m ih =>
    obtain ⟨-, hlt, hwf⟩ := Memory.wf_cons.1 hm
    unfold Memory.write
    split
    · rename_i hi
      split
      · rename_i hv
        rw [hv]
        refine Memory.read_unlisted (fun d hd => ?_)
        rcases List.mem_cons.1 hd with rfl | hd
        · omega
        · have := hlt d hd; omega
      · simp [Memory.read]
    · split
      · rename_i hc
        split
        · rename_i hv
          rw [hv]
          exact Memory.read_unlisted (fun d hd => by have := hlt d hd; omega)
        · simp [Memory.read]
      · rename_i hc
        simp [Memory.read, hc, ih hwf]

theorem Memory.mem_write {m : Memory} {i : Nat} {v : Byte} {d : Host.Cell} (h : d ∈ Memory.write m i v) :
    d ∈ m ∨ d = (i, v) := by
  induction m with
  | nil =>
    unfold Memory.write at h
    split at h <;> simp_all
  | cons c m ih =>
    unfold Memory.write at h
    split at h
    · split at h
      · exact .inl h
      · rcases List.mem_cons.1 h with h | h
        · exact .inr h
        · exact .inl h
    · split at h
      · split at h
        · exact .inl (by simp [h])
        · rcases List.mem_cons.1 h with h | h
          · exact .inr h
          · exact .inl (by simp [h])
      · rcases List.mem_cons.1 h with h | h
        · exact .inl (by simp [h])
        · rcases ih h with h | h
          · exact .inl (by simp [h])
          · exact .inr h

/-- Every memory operation keeps the canonical form; this is the only one that changes a memory. -/
theorem Memory.wf_write {m : Memory} (hm : Memory.wf m = true) (i : Nat) (v : Byte) :
    Memory.wf (Memory.write m i v) = true := by
  induction m with
  | nil =>
    unfold Memory.write
    split
    · rfl
    · rename_i hv
      exact Memory.wf_cons.2 ⟨hv, by simp, rfl⟩
  | cons c m ih =>
    obtain ⟨hne, hlt, hwf⟩ := Memory.wf_cons.1 hm
    unfold Memory.write
    split
    · rename_i hi
      split
      · exact hm
      · rename_i hv
        refine Memory.wf_cons.2 ⟨hv, fun d hd => ?_, hm⟩
        rcases List.mem_cons.1 hd with rfl | hd
        · exact hi
        · exact Nat.lt_trans hi (hlt d hd)
    · split
      · rename_i hc
        split
        · exact hwf
        · rename_i hv
          exact Memory.wf_cons.2 ⟨hv, fun d hd => hc ▸ hlt d hd, hwf⟩
      · rename_i hi hc
        refine Memory.wf_cons.2 ⟨hne, fun d hd => ?_, ih hwf⟩
        rcases Memory.mem_write hd with hd | rfl
        · exact hlt d hd
        · show c.1 < i
          omega

/-- Canonical memories that read alike are equal data. -/
theorem Memory.ext_of_wf {m m' : Memory} (hm : Memory.wf m = true) (hm' : Memory.wf m' = true)
    (h : ∀ i, Memory.read m i = Memory.read m' i) : m = m' := by
  induction m generalizing m' with
  | nil =>
    cases m' with
    | nil => rfl
    | cons c' m' =>
      have h1 := h c'.1
      simp only [Memory.read, if_true] at h1
      exact absurd h1.symm (Memory.wf_cons.1 hm').1
  | cons c m ih =>
    obtain ⟨hne, hlt, hwf⟩ := Memory.wf_cons.1 hm
    cases m' with
    | nil =>
      have h1 := h c.1
      simp only [Memory.read, if_true] at h1
      exact absurd h1 hne
    | cons c' m' =>
      obtain ⟨hne', hlt', hwf'⟩ := Memory.wf_cons.1 hm'
      have key : c.1 = c'.1 := by
        rcases Nat.lt_trichotomy c.1 c'.1 with hl | he | hl
        · have h1 := h c.1
          rw [Memory.read_unlisted (m := c' :: m')] at h1
          · simp only [Memory.read, if_true] at h1
            exact absurd h1 hne
          · intro d hd
            rcases List.mem_cons.1 hd with rfl | hd
            · omega
            · have := hlt' d hd; omega
        · exact he
        · have h1 := h c'.1
          rw [Memory.read_unlisted (m := c :: m)] at h1
          · simp only [Memory.read, if_true] at h1
            exact absurd h1.symm hne'
          · intro d hd
            rcases List.mem_cons.1 hd with rfl | hd
            · omega
            · have := hlt d hd; omega
      have hval : c.2 = c'.2 := by
        have h1 := h c.1
        simpa [Memory.read, key] using h1
      have htail : m = m' := by
        refine ih hwf hwf' (fun i => ?_)
        by_cases hi : c.1 = i
        · rw [Memory.read_unlisted (fun d hd => by have := hlt d hd; omega),
            Memory.read_unlisted (fun d hd => by have := hlt' d hd; omega)]
        · have h1 := h i
          have hi' : c'.1 ≠ i := key ▸ hi
          simpa [Memory.read, hi, hi'] using h1
      rw [htail, Prod.ext key hval]

end Sys2Proof.Machine
end

