-- ==== Sys2Proof/Laws/Writer.lean ====
section
/-! SUPPORT. What the writer core and the window write can do (spec/41_writer.md R133, R134, R137, R138). -/

namespace Sys2Proof.Machine

/-- Reading a byte after one `MemWrite`. -/
theorem memRead_memWrite {st : State} (hwf : st.storage.wf = true) (i j : Nat) (v : Byte) :
    memRead j (memWrite i v st) = if j = i then v else memRead j st := by
  unfold memRead
  rw [memWrite_storage]
  split
  · rename_i h; rw [h, Memory.read_write_same hwf]
  · rename_i h; rw [Memory.read_write_other h]

/-- Reading a bit after one chunk: a symbol of the chunk inside it, the old bit outside (R134 for one byte). -/
theorem bitRead_chunk {st : State} (hwf : st.storage.wf = true) (b s : Nat) (C : BitString) (hs : s ≤ 7)
    (hC : C.length ≤ 8 - s) (o : Nat) :
    bitRead o (memWrite b (merge (memRead b st) s C.length (val C)) st) =
      if join b s ≤ o ∧ o < join b s + C.length then C.getD (o - join b s) false else bitRead o st := by
  unfold bitRead
  rw [memRead_memWrite hwf]
  have hval := val_lt C
  unfold join
  by_cases hb : o / 8 = b
  · rw [if_pos hb, getLsbD_merge _ hC hval (by omega)]
    by_cases hin : 8 * b + s ≤ o ∧ o < 8 * b + s + C.length
    · rw [if_pos (by omega), if_pos hin, testBit_val]
      rw [List.getD_eq_getElem?_getD, List.getD_eq_getElem?_getD, List.getElem?_reverse (by omega)]
      congr 2
      omega
    · rw [if_neg (by omega), if_neg hin, hb]
  · rw [if_neg hb, if_neg (by omega)]

/-- The writer core leaves the registers, the parameters and the ports alone (R133). -/
theorem writerCore_frame (k b s : Nat) (W : BitString) (st : State) :
    (writerCore k b s W st).2.curByte = st.curByte ∧ (writerCore k b s W st).2.curSub = st.curSub ∧
      (writerCore k b s W st).2.extent = st.extent ∧ (writerCore k b s W st).2.endian = st.endian ∧
      (writerCore k b s W st).2.params = st.params ∧ (writerCore k b s W st).2.inputs = st.inputs ∧
      (writerCore k b s W st).2.responses = st.responses := by
  induction k generalizing b s W st with
  | zero => simp [writerCore]
  | succ k ih =>
    unfold writerCore
    split
    · simp
    · exact ih _ _ _ _

/-- The writer core keeps the canonical form. -/
theorem writerCore_wf (k b s : Nat) (W : BitString) {st : State} (hwf : st.storage.wf = true) :
    (writerCore k b s W st).2.storage.wf = true := by
  induction k generalizing b s W st with
  | zero => simpa [writerCore] using hwf
  | succ k ih =>
    unfold writerCore
    split
    · exact hwf
    · exact ih _ _ _ (by simpa using Memory.wf_write hwf _ _)

/-- R133, R137: the core ends at `split(start + L)`. -/
theorem writerCore_pair {k b s : Nat} {W : BitString} (st : State) (hs : s ≤ 7) (hk : W.length ≤ k) :
    (writerCore k b s W st).1 = split (join b s + W.length) := by
  induction k generalizing b s W st with
  | zero =>
    have : W.length = 0 := by omega
    simp [writerCore, this, split_of_join hs]
  | succ k ih =>
    unfold writerCore
    split
    · rename_i h
      simp only [List.isEmpty_iff] at h
      simp [h, split_of_join hs]
    · rename_i h
      simp only [List.isEmpty_iff] at h
      have hW : 1 ≤ W.length := by
        cases W with
        | nil => exact absurd rfl h
        | cons => simp
      have h1 := chunk_pos hs hW
      have h2 := chunk_le_byte s W.length
      have h3 := chunk_le_rem s W.length
      dsimp only
      rw [ih _ stepPair_sub (by simp; omega), stepPair_join h2 hs, List.length_drop]
      congr 1
      omega

/-- R134, the closed form: a symbol of `W` inside the window, the old bit outside. -/
theorem writerCore_bitRead {k b s : Nat} {W : BitString} {st : State} (hwf : st.storage.wf = true) (hs : s ≤ 7)
    (hk : W.length ≤ k) (o : Nat) :
    bitRead o (writerCore k b s W st).2 =
      if join b s ≤ o ∧ o < join b s + W.length then W.getD (o - join b s) false else bitRead o st := by
  induction k generalizing b s W st with
  | zero =>
    have : W.length = 0 := by omega
    rw [if_neg (by omega)]
    rfl
  | succ k ih =>
    unfold writerCore
    split
    · rename_i h
      simp only [List.isEmpty_iff] at h
      subst h
      rw [if_neg (by simp)]
    · rename_i h
      simp only [List.isEmpty_iff] at h
      have hW : 1 ≤ W.length := by
        cases W with
        | nil => exact absurd rfl h
        | cons => simp
      have h1 := chunk_pos hs hW
      have h2 := chunk_le_byte s W.length
      have h3 := chunk_le_rem s W.length
      dsimp only
      rw [ih (by simpa using Memory.wf_write hwf _ _) stepPair_sub (by simp; omega), stepPair_join h2 hs,
        List.length_drop]
      have hlen : (W.take (chunk s W.length)).length = chunk s W.length := by simp; omega
      have key := bitRead_chunk hwf b s (W.take (chunk s W.length)) hs (by omega) o
      rw [hlen] at key
      rw [key]
      by_cases hin : join b s + chunk s W.length ≤ o ∧ o < join b s + W.length
      · rw [if_pos (by omega), if_pos (by omega), List.getD_eq_getElem?_getD, List.getD_eq_getElem?_getD,
          List.getElem?_drop]
        congr 2
        omega
      · rw [if_neg (by omega)]
        by_cases hin2 : join b s ≤ o ∧ o < join b s + chunk s W.length
        · rw [if_pos hin2, if_pos (by omega), List.getD_eq_getElem?_getD, List.getD_eq_getElem?_getD,
            List.getElem?_take_of_lt (by omega)]
        · rw [if_neg hin2, if_neg (by omega)]

/-- R55: the core raises `LEN_BYTES` to the last byte of its window. -/
theorem writerCore_lenBytes {k b s : Nat} {W : BitString} {st : State} (hs : s ≤ 7) (hk : W.length ≤ k)
    (hcap : join b s + W.length ≤ capBits st.params) (hW : 1 ≤ W.length) :
    (writerCore k b s W st).2.lenBytes.toNat = max st.lenBytes.toNat (ceil8 (join b s + W.length)) := by
  induction k generalizing b s W st with
  | zero => omega
  | succ k ih =>
    unfold writerCore
    split
    · rename_i h
      simp only [List.isEmpty_iff] at h
      simp [h] at hW
    · have h1 := chunk_pos hs hW
      have h2 := chunk_le_byte s W.length
      have h3 := chunk_le_rem s W.length
      have hp := st.params.capBytes.isLt
      have hl := st.lenBytes.isLt
      dsimp only
      have hm : (memWrite b (merge (memRead b st) s (chunk s W.length) (val (W.take (chunk s W.length)))) st).lenBytes.toNat
          = max st.lenBytes.toNat (b + 1) := by
        rw [memWrite_lenBytes, BitVec.toNat_ofNat, Nat.mod_eq_of_lt]
        unfold capBits join at hcap
        omega
      by_cases hrest : chunk s W.length = W.length
      · have hnil : W.drop (chunk s W.length) = [] := by simp [hrest]
        have hstop : ∀ (k b s : Nat) (st : State), (writerCore k b s [] st).2 = st := by
          intro k b s st
          cases k <;> simp [writerCore]
        rw [hnil, hstop, hm]
        unfold ceil8 join
        congr 1
        omega
      · rw [ih stepPair_sub (by simp; omega) _ (by simp; omega), hm, stepPair_join h2 hs, List.length_drop]
        · unfold ceil8 join
          omega
        · rw [stepPair_join h2 hs, List.length_drop, memWrite_params]
          omega

/-- What every write of at least one bit does (R133, R134, R137, R138, R55), once. -/
theorem writeWindow_spec {b s L : Nat} (pat : Pattern) {st : State} (hwf : st.storage.wf = true) (hs : s ≤ 7)
    (hL : 1 ≤ L) (hcap : join b s + L ≤ capBits st.params) :
    let r := writeWindow b s L pat st
    r.1 = split (join b s + L) ∧ r.2.storage.wf = true ∧
      (∀ i, i < L → bitRead (join b s + i) r.2 =
        (decide (L - 1 - i < pat.plen.toNat) && pat.pdata.getLsbD (L - 1 - i))) ∧
      (∀ o, (o < join b s ∨ join b s + L ≤ o) → bitRead o r.2 = bitRead o st) ∧
      r.2.extent.toNat = max st.extent.toNat (join b s + L) ∧
      r.2.lenBytes.toNat = max st.lenBytes.toNat (ceil8 (join b s + L)) ∧
      r.2.curByte = st.curByte ∧ r.2.curSub = st.curSub ∧ r.2.endian = st.endian ∧ r.2.params = st.params ∧
      r.2.inputs = st.inputs ∧ r.2.responses = st.responses := by
  intro r
  have hlen : (rightAlign L (symbolsOf pat)).length = L := length_rightAlign _ _
  obtain ⟨f1, f2, f3, f4, f5, f6, f7⟩ := writerCore_frame L b s (rightAlign L (symbolsOf pat)) st
  have hp := st.params.capBytes.isLt
  have hbit := fun o => writerCore_bitRead (k := L) (b := b) (W := rightAlign L (symbolsOf pat)) hwf hs (by omega) o
  refine ⟨?_, ?_, ?_, ?_, ?_, ?_, f1, f2, f4, f5, f6, f7⟩
  · show (writerCore L b s (rightAlign L (symbolsOf pat)) st).1 = _
    rw [writerCore_pair st hs (by omega), hlen]
  · exact writerCore_wf _ _ _ _ hwf
  · intro i hi
    show bitRead _ (raiseExtent _ _) = _
    rw [raiseExtent_bitRead, hbit, if_pos (by omega), Nat.add_sub_cancel_left, getD_window L pat hi]
  · intro o ho
    show bitRead _ (raiseExtent _ _) = _
    rw [raiseExtent_bitRead, hbit, if_neg (by omega)]
  · show (raiseExtent (join b s + L) (writerCore L b s (rightAlign L (symbolsOf pat)) st).2).extent.toNat = _
    have he := st.extent.isLt
    rw [raiseExtent_extent, f3, BitVec.toNat_ofNat, Nat.mod_eq_of_lt]
    unfold capBits at hcap
    omega
  · show (raiseExtent (join b s + L) (writerCore L b s (rightAlign L (symbolsOf pat)) st).2).lenBytes.toNat = _
    rw [raiseExtent_lenBytes, writerCore_lenBytes hs (by omega) (by omega) (by omega), hlen]

end Sys2Proof.Machine
end

