-- ==== Sys2Proof/Laws/Ops.lean ====
section
/-! SUPPORT. What each shared operation can answer, said once (spec/00_scope.md R12, spec/60_exceptions.md R212,
spec/43_bounded_write.md R170, spec/42_reader.md R154 to R156, spec/44_typed_read.md R186), and the invariant checked on
data. -/

namespace Sys2Proof.Machine

/-- Raising a fault: the state before the command with the fault's response added (R212, R213). -/
theorem raise_eq (f : FaultCode) (s : State) : raise f s = .next (responded (faultResponse f) s) := rfl

/-- Completing with a value: the state given with one response added (R70). -/
theorem respond_eq (v : Nat) (s : State) : respond v s = .next (responded (okResponse (BitVec.ofNat 32 v)) s) := rfl

/-- The cursor set to `split` of an offset below 2^32 stands at that offset (R100 to R102). -/
theorem curOff_setCursor_split {o : Nat} (h : o < 2 ^ 32) (s : State) : curOff (setCursor (split o) s) = o := by
  unfold curOff join
  simp only [setCursor_curByte, setCursor_curSub, split, BitVec.toNat_ofNat]
  omega

/-- A cursor offset fits 32 bits (R21). -/
theorem curOff_lt (s : State) : curOff s < 2 ^ 32 := by
  have h1 := s.curByte.isLt
  have h2 := s.curSub.isLt
  unfold curOff join
  omega

/-- `CAP_BITS` < 2^32 (R6). -/
theorem capBits_lt (p : Params) : capBits p < 2 ^ 32 := by
  have := p.capBytes.isLt
  unfold capBits
  omega

/-- The window write in the statements' words (R134, R138, R139). -/
theorem writeWindow_written {b s L : Nat} (pat : Pattern) {st : State} (hwf : st.storage.wf = true) (hs : s ≤ 7)
    (hL : 1 ≤ L) (hcap : join b s + L ≤ capBits st.params) :
    WindowWritten (join b s) L pat st (writeWindow b s L pat st).2 := by
  obtain ⟨-, -, h3, h4, h5, h6, -, -, h9, h10, h11, -⟩ := writeWindow_spec pat hwf hs hL hcap
  refine ⟨h3, h4, fun i hi => ?_, h5, h6, h9, h10, h11⟩
  apply BitVec.eq_of_getLsbD_eq
  intro k hk
  have hb := h4 (8 * i + (7 - k)) (by omega)
  unfold bitRead at hb
  have h1 : (8 * i + (7 - k)) / 8 = i := by omega
  have h2 : 7 - (8 * i + (7 - k)) % 8 = k := by omega
  rwa [h1, h2] at hb

/-- A bounded write either refuses for want of capacity or leaves the cursor at `EXTENT` (R170, R174). -/
theorem boundedWrite_cases (b s L : Nat) (pat : Pattern) (st : State) :
    (1 ≤ L ∧ capBits st.params < join b s + L ∧
      boundedWrite b s L pat st = .next (responded (faultResponse .capacityExceeded) st)) ∨
    (L = 0 ∧ boundedWrite b s L pat st =
      .next (responded (okResponse 0) (setCursor (split st.extent.toNat) st))) ∨
    (1 ≤ L ∧ join b s + L ≤ capBits st.params ∧ boundedWrite b s L pat st =
      .next (responded (okResponse 0)
        (setCursor (split (writeWindow b s L pat st).2.extent.toNat) (writeWindow b s L pat st).2))) := by
  unfold boundedWrite
  split
  · rename_i h
    exact .inl ⟨h.1, h.2, rfl⟩
  · rename_i h
    by_cases hL : 1 ≤ L
    · refine .inr (.inr ⟨hL, by omega, ?_⟩)
      simp only [hL, if_true]
      rfl
    · refine .inr (.inl ⟨by omega, ?_⟩)
      simp only [hL, if_false]
      rfl

/-- The end of a read command, where the range lies in storage (R151 to R153, R70, R72). -/
theorem answerRange_ok {pos req : Nat} {s : State} (h : s.extent.toNat ≤ capBits s.params) (s' : State) :
    ∃ r, answerRange pos req s s' = .next (responded r s') ∧
      RangeAnswered pos (min req s.extent.toNat - pos) s r := by
  refine ⟨⟨0, BitVec.ofNat 32 (readerCore pos req s).flatten.length, beatsOf (readerCore pos req s)⟩, ?_, ?_⟩
  · unfold answerRange
    rw [readRange_ok h]
    rfl
  · have hlen : (readerCore pos req s).flatten.length = min req s.extent.toNat - pos := by
      rw [readerCore_flatten]; simp
    have he := s.extent.isLt
    constructor
    · rfl
    · show (BitVec.ofNat 32 (readerCore pos req s).flatten.length).toNat = _
      rw [hlen, BitVec.toNat_ofNat, Nat.mod_eq_of_lt (by omega)]
    · show List.flatten _ = _
      rw [bits_beatsOf (fun C hC => (readerCore_chunk hC).2), readerCore_flatten]
    · rw [length_beatsOf, readerCore_length]
    · exact fun b hb => mem_beatsOf (fun C hC => readerCore_chunk hC) hb
    · exact fun k hk => last_beatsOf _ k hk

/-- What a typed read does, where the range lies in storage (R186, R218, R220). -/
theorem typedRead_cases {w : Nat} (pos : Option Word) {s : State} (h : s.extent.toNat ≤ capBits s.params) :
    let p := match pos with
      | some a => a.toNat
      | none => curOff s
    let s' := match pos with
      | some a => setCursor (split a.toNat) s
      | none => s
    (s.params.hasTyped = false ∧ typedRead w pos s = .next (responded (faultResponse .illegalCommand) s)) ∨
    (s.params.hasTyped = true ∧ s.extent.toNat < p + w ∧
      typedRead w pos s = .next (responded (faultResponse .insufficientData) s)) ∨
    (s.params.hasTyped = true ∧ p + w ≤ s.extent.toNat ∧
      typedRead w pos s = .next (responded (okResponse (BitVec.ofNat 32 (rangeValue p w s))) s')) := by
  intro p s'
  cases ht : s.params.hasTyped
  · refine .inl ⟨rfl, ?_⟩
    unfold typedRead
    simp only [ht, Bool.not_false, if_true]
    rfl
  · by_cases hd : s.extent.toNat < p + w
    · refine .inr (.inl ⟨rfl, hd, ?_⟩)
      unfold typedRead
      simp only [ht, Bool.not_true, Bool.false_eq_true, if_false]
      exact if_pos hd
    · refine .inr (.inr ⟨rfl, by omega, ?_⟩)
      have hv : val (readerCore p (p + w) s).flatten = rangeValue p w s := by
        rw [readerCore_flatten, val_range_map]
        have : min (p + w) s.extent.toNat - p = w := by omega
        rw [this]
        rfl
      unfold typedRead
      simp only [ht, Bool.not_true, Bool.false_eq_true, if_false]
      refine (if_neg hd).trans ?_
      show (match readRange p (p + w) s with
        | .error f => (.fault f : Result)
        | .ok chunks => respond (val chunks.flatten) s') = _
      rw [readRange_ok h]
      show respond (val (readerCore p (p + w) s).flatten) s' = _
      rw [hv]
      rfl

/-- The invariant's two unbounded clauses, from what a finite check sees: every listed index is below `LEN_BYTES`, and the
bits of the last bytes from `EXTENT` on are 0. -/
theorem inv_of_checks {s : State} (h1 : s.storage.wf = true) (h2 : s.lenBytes.toNat ≤ s.params.capBytes.val)
    (h3 : s.extent.toNat ≤ 8 * s.lenBytes.toNat) (h4 : s.storage.all (fun c => decide (c.1 < s.lenBytes.toNat)) = true)
    (h5 : ((List.range (8 * s.lenBytes.toNat)).all fun o => decide (o < s.extent.toNat) || !bitRead o s) = true) :
    s.Inv := by
  have hlen : ∀ i, s.lenBytes.toNat ≤ i → memRead i s = 0 := by
    intro i hi
    unfold memRead
    refine Memory.read_unlisted (fun d hd => ?_)
    have := of_decide_eq_true (List.all_eq_true.1 h4 d hd)
    omega
  refine ⟨h1, h2, h3, fun o ho => ?_, hlen⟩
  by_cases hin : o < 8 * s.lenBytes.toNat
  · have hc := List.all_eq_true.1 h5 o (List.mem_range.2 hin)
    simp only [Bool.or_eq_true, decide_eq_true_eq, Bool.not_eq_true'] at hc
    rcases hc with hc | hc
    · omega
    · exact hc
  · unfold bitRead
    rw [hlen _ (by omega)]
    simp

/-- Under the invariant every readable bit lies in storage (R151's last sentence). -/
theorem State.Inv.extent_le_cap {s : State} (h : s.Inv) : s.extent.toNat ≤ capBits s.params := by
  have h1 := h.lenLeCap
  have h2 := h.extentLeLen
  unfold capBits
  omega

end Sys2Proof.Machine
end

