-- ==== Sys2Proof/Laws/Invariant.lean ====
section
/-! SUPPORT. What the invariant and equality of storage rest on, for the proofs about steps (spec/10_state.md R32, R33). -/

namespace Sys2Proof.Machine

/-- The invariant looks at storage, `LEN_BYTES`, `EXTENT` and the parameters only. -/
theorem State.Inv.of_same {s t : State} (h : s.Inv) (h1 : t.storage = s.storage) (h2 : t.lenBytes = s.lenBytes)
    (h3 : t.extent = s.extent) (h4 : t.params = s.params) : t.Inv := by
  obtain ⟨a, b, c, d, e⟩ := h
  refine ⟨by rw [h1]; exact a, by rw [h2, h4]; exact b, by rw [h2, h3]; exact c, fun o ho => ?_, fun i hi => ?_⟩
  · have hd := d o (by rw [← h3]; exact ho)
    unfold bitRead memRead at hd ⊢
    rw [h1]
    exact hd
  · have he := e i (by rw [← h2]; exact hi)
    unfold memRead at he ⊢
    rw [h1]
    exact he

/-- A window write keeps the invariant (R32, R33). -/
theorem writeWindow_inv {b s L : Nat} (pat : Pattern) {st : State} (hi : st.Inv) (hs : s ≤ 7) (hL : 1 ≤ L)
    (hcap : join b s + L ≤ capBits st.params) : (writeWindow b s L pat st).2.Inv := by
  obtain ⟨-, hwf, -, hout, hext, hlen, -, -, -, hpar, -, -⟩ := writeWindow_spec pat hi.canonical hs hL hcap
  have hbytes := (writeWindow_written pat hi.canonical hs hL hcap).bytes
  obtain ⟨-, b2, c, d, e⟩ := hi
  refine ⟨hwf, ?_, ?_, fun o ho => ?_, fun i hi => ?_⟩
  · rw [hlen, hpar]
    unfold ceil8
    unfold capBits at hcap
    omega
  · rw [hext, hlen]
    unfold ceil8
    omega
  · rw [hext] at ho
    rw [hout o (by omega)]
    exact d o (by omega)
  · rw [hlen] at hi
    unfold ceil8 at hi
    rw [hbytes i (by omega)]
    exact e i (by omega)

/-- Canonical storage that reads alike bit by bit is equal data (R40). -/
theorem storage_eq_of_bits {s t : State} (hs : s.storage.wf = true) (ht : t.storage.wf = true)
    (h : ∀ o, bitRead o s = bitRead o t) : s.storage = t.storage := by
  refine Memory.ext_of_wf hs ht (fun i => BitVec.eq_of_getLsbD_eq (fun k hk => ?_))
  have hb := h (8 * i + (7 - k))
  unfold bitRead memRead at hb
  have h1 : (8 * i + (7 - k)) / 8 = i := by omega
  have h2 : 7 - (8 * i + (7 - k)) % 8 = k := by omega
  rwa [h1, h2] at hb

end Sys2Proof.Machine
end

