-- ==== Sys2Proof/Laws/PerInstr.lean ====
section
/-! SUPPORT. One lemma per command: the header its encoding puts on the wires is selected by its own row of the opcode map
(spec/30_encoding.md R75), whatever its operands. -/

namespace Sys2Proof.Laws.EncodedRow

/-- The row a command belongs to. -/
def opcodeOf : Instr → Opcode
  | .init _ _ => .init
  | .getoff => .getoff
  | .setabs _ => .setabs
  | .setpair _ _ => .setpair
  | .mvstart => .mvstart
  | .mvend => .mvend
  | .advbyte => .advbyte
  | .write _ _ _ => .write
  | .writeatAbs _ _ _ _ => .writeatAbs
  | .writeatPair _ _ _ _ _ => .writeatPair
  | .writerange _ _ _ _ => .writerange
  | .read => .read
  | .readfrom _ => .readfrom
  | .readn _ _ => .readn
  | .rdu8 _ => .rdu8
  | .rdu16 _ => .rdu16
  | .rdu32 _ => .rdu32

/-- The first row that selects the encoded header is the command's own. -/
def Statement (i : Instr) : Prop :=
  (opcodeTable.find? (fun r => r.selects (encodeHdr i))).map Row.op = some (opcodeOf i)

theorem init (e : Endian) (n : Word) : Statement (.init e n) := by
  have h : ∀ e : Bool, (opcodeTable.find? (fun r => r.selects (packHdr 0x01 false false 0 e 0))).map Row.op =
      some .init := by decide
  exact h e.toBit
theorem getoff : Statement .getoff := by unfold Statement; decide
theorem setabs (off : Word) : Statement (.setabs off) := by
  show (opcodeTable.find? (fun r => r.selects (packHdr 0x11 false false 0 false 0))).map Row.op = some .setabs
  decide
theorem setpair (byte : Word) (sub : Byte) : Statement (.setpair byte sub) := by
  have h : ∀ sub : Byte, (opcodeTable.find? (fun r => r.selects (packHdr 0x12 false false 0 false sub))).map Row.op =
      some .setpair := by decide +kernel
  exact h sub
theorem mvstart : Statement .mvstart := by unfold Statement; decide
theorem mvend : Statement .mvend := by unfold Statement; decide
theorem advbyte : Statement .advbyte := by unfold Statement; decide
theorem write (len : Option Word) (src : SourceTag) (pat : Pattern) : Statement (.write len src pat) := by
  have h : ∀ (hl : Bool) (src : BitVec 2),
      (opcodeTable.find? (fun r => r.selects (packHdr 0x20 hl false src false 0))).map Row.op = some .write := by
    decide +kernel
  exact h len.isSome src.toBits
theorem writeatAbs (pos : Word) (len : Option Word) (src : SourceTag) (pat : Pattern) :
    Statement (.writeatAbs pos len src pat) := by
  have h : ∀ (hl : Bool) (src : BitVec 2),
      (opcodeTable.find? (fun r => r.selects (packHdr 0x21 hl false src false 0))).map Row.op = some .writeatAbs := by
    decide +kernel
  exact h len.isSome src.toBits
theorem writeatPair (byte : Word) (sub : Byte) (len : Option Word) (src : SourceTag) (pat : Pattern) :
    Statement (.writeatPair byte sub len src pat) := by
  have h : ∀ (hl : Bool) (src : BitVec 2) (sub : Byte),
      (opcodeTable.find? (fun r => r.selects (packHdr 0x22 hl false src false sub))).map Row.op =
        some .writeatPair := by decide +kernel
  exact h len.isSome src.toBits sub
theorem writerange (start stop : Word) (src : SourceTag) (pat : Pattern) :
    Statement (.writerange start stop src pat) := by
  have h : ∀ (src : BitVec 2),
      (opcodeTable.find? (fun r => r.selects (packHdr 0x23 false false src false 0))).map Row.op =
        some .writerange := by decide +kernel
  exact h src.toBits
theorem read : Statement .read := by unfold Statement; decide
theorem readfrom (pos : Word) : Statement (.readfrom pos) := by
  show (opcodeTable.find? (fun r => r.selects (packHdr 0x31 false false 0 false 0))).map Row.op = some .readfrom
  decide
theorem readn (pos len : Word) : Statement (.readn pos len) := by
  show (opcodeTable.find? (fun r => r.selects (packHdr 0x32 false false 0 false 0))).map Row.op = some .readn
  decide
theorem rdu8 (pos : Option Word) : Statement (.rdu8 pos) := by
  have h : ∀ hp : Bool, (opcodeTable.find? (fun r => r.selects (packHdr 0x40 false hp 0 false 0))).map Row.op =
      some .rdu8 := by decide
  exact h pos.isSome
theorem rdu16 (pos : Option Word) : Statement (.rdu16 pos) := by
  have h : ∀ hp : Bool, (opcodeTable.find? (fun r => r.selects (packHdr 0x41 false hp 0 false 0))).map Row.op =
      some .rdu16 := by decide
  exact h pos.isSome
theorem rdu32 (pos : Option Word) : Statement (.rdu32 pos) := by
  have h : ∀ hp : Bool, (opcodeTable.find? (fun r => r.selects (packHdr 0x42 false hp 0 false 0))).map Row.op =
      some .rdu32 := by decide
  exact h pos.isSome

end Sys2Proof.Laws.EncodedRow
end

