-- ==== Sys2Proof/Tests/Slice0.lean ====
section
/-! SUPPORT. The model's own tests. Expected results are those of spec/95_test_vectors.md (the section and row stand in each
comment) or the encodings of spec/30_encoding.md R75, R80. Then one witness for the hypotheses of each statement. -/

namespace Sys2Proof.Machine.Tests

/-! ### Helpers -/

/-- A state with the given storage, `LEN_BYTES`, `EXTENT` and cursor. -/
def buffer (m : Memory) (len : BitVec 30) (ext : Word) (b : ByteIndex) (c : SubIndex) : State :=
  { State.reset with storage := m, lenBytes := len, extent := ext, curByte := b, curSub := c }

/-- The outcome is a next state with this storage, `LEN_BYTES`, `EXTENT`, cursor and last response. -/
def shows (o : Result) (m : Memory) (len : BitVec 30) (ext : Word) (b : ByteIndex) (c : SubIndex) (r : Response) : Bool :=
  match o with
  | .next t => decide (t.storage = m ∧ t.lenBytes = len ∧ t.extent = ext ∧ t.curByte = b ∧ t.curSub = c ∧
      t.responses.getLast? = some r)
  | .fault _ => false
  | .refused _ => false

/-- The state vector W1 leaves: `storage 05 9C 40 | LEN 3 | EXT 18 | cur (2,2)`. -/
def w1 : State := buffer [(0, 0x05), (1, 0x9C), (2, 0x40)] 3 18 2 2

/-- Section 6's state: `storage A5 F0 12 34 | LEN 4 | EXT 32 | cur (4,0)`. -/
def typed : State := buffer [(0, 0xA5), (1, 0xF0), (2, 0x12), (3, 0x34)] 4 32 4 0

/-- A parameter set without the typed reads. -/
def untyped : Params := { Params.reference with hasTyped := false }

/-! ### WellFormed: each check refuses an ill-formed term -/

theorem test_wf_refuses_rdu8_without_typed : Instr.wf untyped (.rdu8 none) = false := by decide
theorem test_wf_refuses_rdu16_without_typed : Instr.wf untyped (.rdu16 (some 4)) = false := by decide
theorem test_wf_refuses_rdu32_without_typed : Instr.wf untyped (.rdu32 none) = false := by decide
theorem test_wf_accepts_rdu8_with_typed : Instr.wf .reference (.rdu8 none) = true := by decide

/-! ### Decoding: a word of every constructor, from R75 and R80 -/

theorem test_decode_init : decode .reference ⟨0x00001001, 12, 0, ⟨0, 0⟩⟩ = .ok (.init .little 12) := by decide
theorem test_decode_getoff : decode .reference ⟨0x00000010, 0, 0, ⟨0, 0⟩⟩ = .ok .getoff := by decide
theorem test_decode_setabs : decode .reference ⟨0x00000011, 0x15, 7, ⟨3, 9⟩⟩ = .ok (.setabs 21) := by decide
theorem test_decode_setpair : decode .reference ⟨0x00090012, 2, 0, ⟨0, 0⟩⟩ = .ok (.setpair 2 9) := by decide
theorem test_decode_mvstart : decode .reference ⟨0x00000013, 0, 0, ⟨0, 0⟩⟩ = .ok .mvstart := by decide
theorem test_decode_mvend : decode .reference ⟨0x00000014, 0, 0, ⟨0, 0⟩⟩ = .ok .mvend := by decide
theorem test_decode_advbyte : decode .reference ⟨0x00000015, 0, 0, ⟨0, 0⟩⟩ = .ok .advbyte := by decide
theorem test_decode_write :
    decode .reference ⟨0x00000D20, 0, 5, ⟨1, 1⟩⟩ = .ok (.write (some 5) .neither3 ⟨1, 1⟩) := by decide
theorem test_decode_writeatAbs :
    decode .reference ⟨0x00000121, 3, 5, ⟨5, 0x1F⟩⟩ = .ok (.writeatAbs 3 (some 5) .rawBitPattern ⟨5, 0x1F⟩) := by decide
theorem test_decode_writeatPair :
    decode .reference ⟨0x00090922, 2, 7, ⟨1, 1⟩⟩ = .ok (.writeatPair 2 9 (some 7) .neither2 ⟨1, 1⟩) := by decide
theorem test_decode_writerange :
    decode .reference ⟨0x00000423, 4, 6, ⟨4, 0xF⟩⟩ = .ok (.writerange 4 6 .bufferHandle ⟨4, 0xF⟩) := by decide
theorem test_decode_read : decode .reference ⟨0x00000030, 0, 0, ⟨0, 0⟩⟩ = .ok .read := by decide
theorem test_decode_readfrom : decode .reference ⟨0x00000031, 12, 0, ⟨0, 0⟩⟩ = .ok (.readfrom 12) := by decide
theorem test_decode_readn : decode .reference ⟨0x00000032, 6, 4, ⟨0, 0⟩⟩ = .ok (.readn 6 4) := by decide
theorem test_decode_rdu8 : decode .reference ⟨0x00000240, 24, 0, ⟨0, 0⟩⟩ = .ok (.rdu8 (some 24)) := by decide
theorem test_decode_rdu16 : decode .reference ⟨0x00000041, 9, 0, ⟨0, 0⟩⟩ = .ok (.rdu16 none) := by decide
theorem test_decode_rdu32 : decode .reference ⟨0x00000242, 1, 0, ⟨0, 0⟩⟩ = .ok (.rdu32 (some 1)) := by decide

/-- 95_test_vectors.md section 8, X1, X3, X4, X5, X7, X8, X9: illegal headers. -/
theorem test_decode_refuses :
    decode .reference ⟨0, 0, 0, ⟨0, 0⟩⟩ = .error .undefinedOpcode ∧
    decode .reference ⟨0x33, 0, 0, ⟨0, 0⟩⟩ = .error .undefinedOpcode ∧
    decode .reference ⟨0x00002010, 0, 0, ⟨0, 0⟩⟩ = .error .strayBits ∧
    decode .reference ⟨0x01000011, 5, 0, ⟨0, 0⟩⟩ = .error .strayBits ∧
    decode .reference ⟨0x00000111, 5, 0, ⟨0, 0⟩⟩ = .error .strayBits ∧
    decode .reference ⟨0x00000220, 0, 0, ⟨1, 1⟩⟩ = .error .strayBits ∧
    decode .reference ⟨0x00001020, 0, 0, ⟨1, 1⟩⟩ = .error .strayBits ∧
    decode untyped ⟨0x00000240, 0, 0, ⟨0, 0⟩⟩ = .error .typedReadsAbsent := by decide

theorem test_decodeTableWord : decodeTableWord 32 0x00050012 = some (.setpair 0 5) := by decide

/-- The host's two questions, on one row: the step after reset runs the word placed. -/
theorem test_withFetchWord :
    shows (step (State.reset.withFetchWord 32 0x00050012)) [] 0 0 0 5 ⟨0, 0, []⟩ = true := by decide

/-! ### Meanings -/

/-- Section 7, steps 1 and 4. -/
theorem test_init_rounds_up : shows (exec (.init .little 3) w1) [] 1 8 0 0 ⟨0, 0, []⟩ = true := by decide
theorem test_init_capacity :
    shows (exec (.init .little 32769) w1) w1.storage 3 18 2 2 ⟨6, 0, []⟩ = true := by decide
/-- Section 2, step 3. -/
theorem test_getoff : shows (exec .getoff (buffer [] 0 0 2 5)) [] 0 0 2 5 ⟨0, 21, []⟩ = true := by decide
/-- Section 2, step 14. -/
theorem test_setabs_top : shows (exec (.setabs 0xFFFFFFFF) .reset) [] 0 0 536870911 7 ⟨0, 0, []⟩ = true := by decide
/-- Section 2, steps 5 and 18. -/
theorem test_setpair_no_carry : shows (exec (.setpair 2 9) .reset) [] 0 0 2 1 ⟨0, 0, []⟩ = true := by decide
theorem test_setpair_wide : shows (exec (.setpair 0x20000000 0) .reset) [] 0 0 0 0 ⟨4, 0, []⟩ = true := by decide
/-- Section 2, step 12; section 4, step 8. -/
theorem test_mvstart : shows (exec .mvstart w1) w1.storage 3 18 0 0 ⟨0, 0, []⟩ = true := by decide
theorem test_mvend : shows (exec .mvend (buffer [] 3 18 9 5)) [] 3 18 2 2 ⟨0, 0, []⟩ = true := by decide
/-- Section 2, steps 11 and 16. -/
theorem test_advbyte_aligned : shows (exec .advbyte (buffer [] 0 0 6 0)) [] 0 0 7 0 ⟨0, 0, []⟩ = true := by decide
theorem test_advbyte_overflow :
    shows (exec .advbyte (buffer [] 0 0 536870911 7)) [] 0 0 536870911 7 ⟨5, 0, []⟩ = true := by decide
/-- Section 3, W1: three chunks, leading symbols first. -/
theorem test_write_across_bytes :
    shows (exec (.write none .rawBitPattern ⟨13, 0x1671⟩) (buffer [] 0 0 0 5)) w1.storage 3 18 2 2 ⟨0, 0, []⟩ = true := by
  decide
/-- Section 3, W4: zeros on the left, the last two bits kept. -/
theorem test_write_pads_left :
    shows (exec (.write (some 6) .rawBitPattern ⟨3, 5⟩) (buffer [(0, 0xFF)] 1 8 0 0)) [(0, 0x17)] 1 8 0 6 ⟨0, 0, []⟩ =
      true := by decide
/-- Section 3, idempotence, step 2; section 8, X23. -/
theorem test_writeatAbs_inside :
    shows (exec (.writeatAbs 6 none .rawBitPattern ⟨3, 0⟩) (buffer [(0, 0xFF), (1, 0xFF)] 2 16 2 0))
      [(0, 0xFC), (1, 0x7F)] 2 16 2 0 ⟨0, 0, []⟩ = true := by decide
theorem test_writeatAbs_no_wrap :
    shows (exec (.writeatAbs 0xFFFFFFFF none .rawBitPattern ⟨1, 1⟩) w1) w1.storage 3 18 2 2 ⟨6, 0, []⟩ = true := by decide
/-- Section 5, run B, step 1; section 8, X18. -/
theorem test_writeatPair_no_carry :
    shows (exec (.writeatPair 1 11 none .rawBitPattern ⟨2, 3⟩) .reset) [(1, 0x18)] 2 13 1 5 ⟨0, 0, []⟩ = true := by decide
theorem test_writeatPair_source_first :
    shows (exec (.writeatPair 0x20000000 0 none .neither3 ⟨1, 1⟩) w1) w1.storage 3 18 2 2 ⟨1, 0, []⟩ = true := by decide
/-- Section 5, run A, steps 2 and 6. -/
theorem test_writerange_truncates :
    shows (exec (.writerange 4 6 .rawBitPattern ⟨4, 0xF⟩) (buffer [] 2 16 2 0)) [(0, 0x0C)] 2 16 2 0 ⟨0, 0, []⟩ =
      true := by decide
theorem test_writerange_degenerate :
    shows (exec (.writerange 9 4 .rawBitPattern ⟨1, 1⟩) (buffer [(0, 0x0C)] 2 16 0 3)) [(0, 0x0C)] 2 16 2 0
      ⟨0, 0, []⟩ = true := by decide
/-- Section 4, step 4. -/
theorem test_read :
    shows (exec .read (buffer w1.storage 3 18 1 4)) w1.storage 3 18 1 4
      ⟨0, 6, [⟨4, 0xC, false⟩, ⟨2, 1, true⟩]⟩ = true := by decide
/-- Section 4, step 11. -/
theorem test_readfrom_empty :
    shows (exec (.readfrom 4000000000) w1) w1.storage 3 18 500000000 0 ⟨0, 0, []⟩ = true := by decide
/-- Section 4, steps 5 and 13. -/
theorem test_readn_clipped :
    shows (exec (.readn 10 100) w1) w1.storage 3 18 1 2 ⟨0, 8, [⟨6, 0x1C, false⟩, ⟨2, 1, true⟩]⟩ = true := by decide
theorem test_readn_negative :
    shows (exec (.readn 5 0xFFFFFFFF) w1) w1.storage 3 18 2 2 ⟨4, 0, []⟩ = true := by decide
/-- Section 6, steps 4 and 5. -/
theorem test_rdu8_last :
    shows (exec (.rdu8 (some 24)) typed) typed.storage 4 32 3 0 ⟨0, 0x34, []⟩ = true := by decide
theorem test_rdu8_short :
    shows (exec (.rdu8 (some 25)) typed) typed.storage 4 32 4 0 ⟨2, 0, []⟩ = true := by decide
/-- Section 6, steps 2 and 10. -/
theorem test_rdu16_unaligned :
    shows (exec (.rdu16 (some 4)) typed) typed.storage 4 32 0 4 ⟨0, 0x5F01, []⟩ = true := by decide
theorem test_rdu16_cursor :
    shows (exec (.rdu16 none) (buffer typed.storage 4 32 1 0)) typed.storage 4 32 1 0 ⟨0, 0xF012, []⟩ = true := by decide
/-- Section 6, steps 3 and 7. -/
theorem test_rdu32 :
    shows (exec (.rdu32 (some 0)) typed) typed.storage 4 32 0 0 ⟨0, 0xA5F01234, []⟩ = true := by decide
theorem test_rdu32_short :
    shows (exec (.rdu32 (some 1)) typed) typed.storage 4 32 4 0 ⟨2, 0, []⟩ = true := by decide
/-- 70_reset_and_hazards.md R240. -/
theorem test_rst : shows (step { typed with inputs := [.rst], responses := [⟨0, 7, []⟩] }) [] 0 0 0 0 ⟨0, 7, []⟩ = true := by
  decide

/-! ### Witnesses: for each statement with hypotheses, a state and operands that meet them, clause by clause at the edges -/

/-- A state with the reference capacity and a cursor at a 32-bit offset. -/
def atOffset (o : Word) : State := cursorAt o w1

/-- `EXTENT` above `CAP_BITS`: a state no run reaches. -/
def pastStorage : State := { w1 with extent := 40000 }

theorem good1 : GoodSource .rawBitPattern ⟨1, 1⟩ := ⟨.inl rfl, by decide⟩
theorem good64 : GoodSource .bufferHandle ⟨64, 1⟩ := ⟨.inr rfl, by decide⟩
theorem bad65 : ¬ GoodSource .rawBitPattern ⟨65, 1⟩ := fun h => absurd h.2 (by decide)
theorem bad_tag : ¬ GoodSource .neither2 ⟨1, 1⟩ := fun h => by rcases h.1 with h | h <;> cases h
theorem w1_inv : w1.Inv := by apply inv_of_checks <;> decide
theorem typed_inv : typed.Inv := by apply inv_of_checks <;> decide

theorem witness_StepRunsDecodedCommand :
    (presentCommand ⟨0x30, 0, 0, ⟨0, 0⟩⟩ w1).inputs = .command ⟨0x30, 0, 0, ⟨0, 0⟩⟩ :: [] ∧
      decode w1.params ⟨0x30, 0, 0, ⟨0, 0⟩⟩ = .ok .read := by decide
theorem witness_StepRejectsUndecodableCommand :
    (presentCommand ⟨0, 0, 0, ⟨0, 0⟩⟩ w1).inputs = .command ⟨0, 0, 0, ⟨0, 0⟩⟩ :: [] ∧
      decode w1.params ⟨0, 0, 0, ⟨0, 0⟩⟩ = .error .undefinedOpcode := by decide
theorem witness_StepOnResetAndOnNothing :
    { w1 with inputs := [Input.rst, .rst] }.inputs = .rst :: [.rst] ∧ w1.inputs = [] := by decide
theorem witness_StepAlwaysAnswers : w1.Inv := w1_inv
theorem witness_EveryCommandAnswersOnceAndFaultsChangeNothing :
    ∃ t, step (presentCommand ⟨0x32, 0, 0xFFFFFFFB, ⟨0, 0⟩⟩ w1) = .next t ∧
      t.responses = (presentCommand ⟨0x32, 0, 0xFFFFFFFB, ⟨0, 0⟩⟩ w1).responses ++ [⟨4, 0, []⟩] :=
  ⟨_, rfl, by decide⟩
theorem witness_StepKeepsInvariants :
    (presentCommand ⟨0x20, 0, 0, ⟨1, 1⟩⟩ w1).Inv ∧ ∃ t, step (presentCommand ⟨0x20, 0, 0, ⟨1, 1⟩⟩ w1) = .next t := by
  refine ⟨?_, _, rfl⟩
  apply inv_of_checks <;> decide
theorem witness_ExtentAndLengthNeverDecrease :
    isInit (.write none .rawBitPattern ⟨1, 1⟩) = false ∧
      writeTarget (.write none .rawBitPattern ⟨1, 1⟩) (atOffset 32767) = some (32767, 1) ∧
      ∃ t, exec (.write none .rawBitPattern ⟨1, 1⟩) (atOffset 32767) = .next t ∧
        t.responses = (atOffset 32767).responses ++ [okResponse 0] :=
  ⟨rfl, by decide, _, rfl, by decide⟩
theorem witness_EndianIsChosenOnlyByInit :
    (isInit .mvend = false ∧ ∃ t, exec .mvend w1 = .next t) ∧
      ∃ t, exec (.init .little 32768) w1 = .next t ∧ t.responses = w1.responses ++ [okResponse 0] :=
  ⟨⟨rfl, _, rfl⟩, _, rfl, by decide⟩
theorem witness_EndianIsReadByNoCommand : isInit .read = false ∧ ∃ t, exec .read w1 = .next t := ⟨rfl, _, rfl⟩
theorem witness_PointerAndReadCommandsKeepStorage :
    isInit (.readfrom 5) = false ∧ writeTarget (.readfrom 5) w1 = none ∧ ∃ t, exec (.readfrom 5) w1 = .next t :=
  ⟨rfl, rfl, _, rfl⟩
theorem witness_DecodeOfEncodeIsTheCommand :
    Instr.wf .reference (.rdu8 (some 0xFFFFFFFF)) = true ∧ Instr.wf untyped (.write none .neither3 ⟨127, 0⟩) = true := by
  decide
theorem witness_EncodeOfDecodeIsTheHeader :
    decode .reference ⟨0x00FF0D22, 9, 9, ⟨127, 0⟩⟩ = .ok (.writeatPair 9 255 (some 9) .neither3 ⟨127, 0⟩) := by decide
theorem witness_OpcodeRowsAreDisjoint :
    (⟨.setpair, 0xFF00FFFF, 0x12⟩ : Row) ∈ opcodeTable ∧ Row.selects ⟨.setpair, 0xFF00FFFF, 0x12⟩ 0x00FF0012 = true := by
  decide
theorem witness_UnusedOperandsAreIgnored :
    rowOf .reference 0x20 = .ok .write ∧ (⟨0x20, 1, 2, ⟨1, 1⟩⟩ : Command).hdr = (⟨0x20, 3, 4, ⟨1, 1⟩⟩ : Command).hdr ∧
      ¬ ((rowUse .write).a = true ∧ ((rowUse .write).hp = true → hdrHp 0x20 = true)) ∧
      ¬ ((rowUse .write).b = true ∧ ((rowUse .write).hl = true → hdrHl 0x20 = true)) := by decide
theorem witness_PatternBitsAbovePlenAreIgnored :
    (⟨1, 3⟩ : Pattern).plen = (⟨1, 1⟩ : Pattern).plen ∧ ∀ k, k < 1 → (3 : BitVec 64).getLsbD k = (1 : BitVec 64).getLsbD k := by
  decide
theorem witness_ChunkFitsAndStepAdvances :
    ((7 : Nat) ≤ 7 ∧ (1 : Nat) ≤ 1 ∧ 1 ≤ 8 - 7 ∧ 7 + 1 = 8) ∧ ((6 : Nat) ≤ 7 ∧ (1 : Nat) ≤ 1 ∧ 1 ≤ 8 - 6 ∧ 6 + 1 ≤ 7) := by
  decide
theorem witness_ConverterSplitsAndJoins : (7 : Nat) ≤ 7 := by decide
theorem witness_ConverterIsOneToOne : (7 : Nat) ≤ 7 := by decide
theorem witness_MergeAndExtractLaws : (0 : Nat) ≤ 7 ∧ (1 : Nat) ≤ 8 ∧ 8 ≤ 8 - 0 ∧ 255 < 2 ^ 8 := by decide
theorem witness_SetpairDropsCarry :
    (0x1FFFFFFF : Word).toNat < 2 ^ 29 ∧ (7 : Byte).toNat ≤ 7 ∧ 2 ^ 29 ≤ (0x20000000 : Word).toNat := by decide
theorem witness_MvstartAndMvendAreShorthands : State.reset.extent = 0 := rfl
theorem witness_AdvbyteMovesToNextByte :
    (buffer [] 0 0 536870910 0).curByte.toNat < 2 ^ 29 - 1 ∧ (buffer [] 0 0 536870911 0).curByte.toNat = 2 ^ 29 - 1 := by
  decide
theorem witness_WriteFollowsItsRule :
    (atOffset 32767).storage.wf = true ∧ ResolvedLength (some 0xFFFFFFFF) ⟨1, 1⟩ 1 ∧ ResolvedLength none ⟨0, 1⟩ 0 ∧
      ¬ GoodSource .neither2 ⟨1, 1⟩ ∧ GoodSource .rawBitPattern ⟨1, 1⟩ ∧
      curOff (atOffset 32767) + 1 ≤ 8 * w1.params.capBytes.val ∧ 8 * w1.params.capBytes.val < curOff (atOffset 32768) + 1 :=
  ⟨by decide, by unfold ResolvedLength; decide, rfl, bad_tag, good1, by decide, by decide⟩
theorem witness_WriteatAbsFollowsItsRule :
    w1.storage.wf = true ∧ ResolvedLength (some 0x80000000) ⟨64, 1⟩ (2 ^ 31) ∧ ResolvedLength (some 0) ⟨1, 1⟩ 0 ∧
      ResolvedLength none ⟨64, 1⟩ 64 ∧ ¬ GoodSource .rawBitPattern ⟨65, 1⟩ ∧ GoodSource .bufferHandle ⟨64, 1⟩ ∧
      (32704 : Word).toNat + 64 ≤ 8 * w1.params.capBytes.val ∧ 8 * w1.params.capBytes.val < (32705 : Word).toNat + 64 :=
  ⟨by decide, by unfold ResolvedLength; decide, by unfold ResolvedLength; decide, rfl, bad65, good64, by decide, by decide⟩
theorem witness_WriteatPairFollowsItsRule :
    w1.storage.wf = true ∧ ResolvedLength none ⟨1, 1⟩ 1 ∧ ResolvedLength none ⟨0, 1⟩ 0 ∧ ¬ GoodSource .neither2 ⟨1, 1⟩ ∧
      GoodSource .rawBitPattern ⟨1, 1⟩ ∧ 2 ^ 29 ≤ (0x20000000 : Word).toNat ∧ (4095 : Word).toNat < 2 ^ 29 ∧
      8 * (4095 : Word).toNat + (255 : Byte).toNat % 8 + 1 ≤ 8 * w1.params.capBytes.val ∧
      8 * w1.params.capBytes.val < 8 * (4096 : Word).toNat + (8 : Byte).toNat % 8 + 1 :=
  ⟨by decide, rfl, rfl, bad_tag, good1, by decide, by decide, by decide, by decide⟩
theorem witness_WriterangeFollowsItsRule :
    w1.storage.wf = true ∧ ¬ GoodSource .neither2 ⟨1, 1⟩ ∧ GoodSource .rawBitPattern ⟨1, 1⟩ ∧
      (9 : Word).toNat ≤ (9 : Word).toNat ∧ (32767 : Word).toNat < (32768 : Word).toNat ∧
      (32768 : Word).toNat ≤ 8 * w1.params.capBytes.val ∧ 8 * w1.params.capBytes.val < (32769 : Word).toNat :=
  ⟨by decide, bad_tag, good1, by decide, by decide, by decide, by decide⟩
theorem witness_WritesStayInsideTheirWindow :
    w1.storage.wf = true ∧
      (writeTarget (.writeatAbs 5 none .rawBitPattern ⟨1, 1⟩) w1 = some (5, 1) ∧
        ∃ t, exec (.writeatAbs 5 none .rawBitPattern ⟨1, 1⟩) w1 = .next t) ∧
      (writeTarget (.writerange 9 9 .rawBitPattern ⟨1, 1⟩) w1 = some (9, 0) ∧
        ∃ t, exec (.writerange 9 9 .rawBitPattern ⟨1, 1⟩) w1 = .next t) ∧
      (writeTarget (.write none .neither2 ⟨1, 1⟩) w1 = some (18, 1) ∧
        ∃ t, exec (.write none .neither2 ⟨1, 1⟩) w1 = .next t ∧ t.responses ≠ w1.responses ++ [okResponse 0]) :=
  ⟨by decide, ⟨by decide, _, rfl⟩, ⟨by decide, _, rfl⟩, by decide, _, rfl, by decide⟩
theorem witness_PositionedWritesLeaveCursorAtExtent :
    isPositionedWrite (.writerange 9 4 .rawBitPattern ⟨1, 1⟩) = true ∧
      ∃ t, exec (.writerange 9 4 .rawBitPattern ⟨1, 1⟩) (atOffset 3) = .next t ∧
        t.responses = (atOffset 3).responses ++ [okResponse 0] := ⟨rfl, _, rfl, by decide⟩
theorem witness_PositionedWritesIgnoreOldCursor :
    isPositionedWrite (.writeatPair 1 11 none .rawBitPattern ⟨1, 1⟩) = true ∧
      ∃ t, exec (.writeatPair 1 11 none .rawBitPattern ⟨1, 1⟩) (atOffset 0xFFFFFFFF) = .next t ∧
        t.responses = (atOffset 0xFFFFFFFF).responses ++ [okResponse 0] := ⟨rfl, _, rfl, by decide⟩
theorem witness_PatchKeepsAppendPosition :
    w1.Inv ∧ GoodSource .rawBitPattern ⟨1, 1⟩ ∧ ResolvedLength none ⟨1, 1⟩ 1 ∧ curOff w1 = w1.extent.toNat ∧
      (17 : Word).toNat + 1 ≤ w1.extent.toNat := ⟨w1_inv, good1, rfl, by decide, by decide⟩
theorem witness_RepeatedWriteChangesNothing :
    (w1.storage.wf = true ∧ (7 : Nat) ≤ 7 ∧ (1 : Nat) ≤ 1 ∧ join 4095 7 + 1 ≤ capBits w1.params) ∧
      (isPositionedWrite (.writeatAbs 6 none .rawBitPattern ⟨3, 0⟩) = true ∧
        ∃ t, exec (.writeatAbs 6 none .rawBitPattern ⟨3, 0⟩) w1 = .next t ∧
          t.responses = w1.responses ++ [okResponse 0]) := ⟨by decide, rfl, _, rfl, by decide⟩
theorem witness_TwoWritesEqualTheirConcatenation :
    (atOffset 32765).storage.wf = true ∧ GoodSource .rawBitPattern ⟨2, 2⟩ ∧ GoodSource .rawBitPattern ⟨1, 1⟩ ∧
      GoodSource .rawBitPattern ⟨3, 5⟩ ∧ symbolsOf ⟨3, 5⟩ = symbolsOf ⟨2, 2⟩ ++ symbolsOf ⟨1, 1⟩ ∧
      curOff (atOffset 32765) + (3 : BitVec 7).toNat ≤ 8 * w1.params.capBytes.val :=
  ⟨by decide, ⟨.inl rfl, by decide⟩, good1, ⟨.inl rfl, by decide⟩, by decide, by decide⟩
theorem witness_WriteThenReadGivesTheWrittenBits :
    w1.Inv ∧ GoodSource .rawBitPattern ⟨1, 1⟩ ∧ ResolvedLength (some 32750) ⟨1, 1⟩ 32750 ∧ 1 ≤ 32750 ∧ 32750 < 2 ^ 31 ∧
      curOff w1 + 32750 ≤ 8 * w1.params.capBytes.val :=
  ⟨w1_inv, good1, by unfold ResolvedLength; decide, by decide, by decide, by decide⟩
theorem witness_OffsetNamesItsBitOfItsByte :
    w1.storage.wf = true ∧ (32767 : Word).toNat + 1 ≤ 8 * w1.params.capBytes.val := by decide
theorem witness_ReadAnswersFromCursor : w1.extent.toNat ≤ 8 * w1.params.capBytes.val := by decide
theorem witness_ReadfromAnswersFromPosition : { w1 with extent := 32768 }.extent.toNat ≤ 8 * w1.params.capBytes.val := by
  decide
theorem witness_ReadnAnswersClippedRange :
    w1.extent.toNat ≤ 8 * w1.params.capBytes.val ∧ (0x80000000 : Word).toInt < 0 ∧ 0 ≤ (0x7FFFFFFF : Word).toInt ∧
      0 ≤ (0 : Word).toInt := by decide
theorem witness_ReadCommandsAgree : w1.extent.toNat ≤ 8 * w1.params.capBytes.val ∧ 0 ≤ (4 : Word).toInt := by decide
theorem witness_BoundedReadsRepeatAndWritesAdvance :
    (w1.extent.toNat ≤ 8 * w1.params.capBytes.val ∧ ∃ t, exec (.readn 6 4) w1 = .next t) ∧
      ((atOffset 32766).storage.wf = true ∧ GoodSource .rawBitPattern ⟨1, 1⟩ ∧ 1 ≤ (1 : BitVec 7).toNat ∧
        curOff (atOffset 32766) + 1 + 1 ≤ 8 * w1.params.capBytes.val ∧
        ∃ t, exec (.write none .rawBitPattern ⟨1, 1⟩) (atOffset 32766) = .next t ∧
          t.responses = (atOffset 32766).responses ++ [okResponse 0]) :=
  ⟨⟨by decide, _, rfl⟩, by decide, good1, by decide, by decide, _, rfl, by decide⟩
theorem witness_ReadPastStorageStops :
    8 * pastStorage.params.capBytes.val < pastStorage.extent.toNat ∧ curOff pastStorage < pastStorage.extent.toNat ∧
      (39999 : Word).toNat < pastStorage.extent.toNat ∧ 0 < (1 : Word).toInt ∧
      (32768 : Word).toNat + (1 : Word).toNat ≤ pastStorage.extent.toNat ∧
      8 * pastStorage.params.capBytes.val < (32768 : Word).toNat + (1 : Word).toNat ∧
      pastStorage.params.hasTyped = true ∧ (32761 : Word).toNat + 32 ≤ pastStorage.extent.toNat ∧
      8 * pastStorage.params.capBytes.val < (32761 : Word).toNat + 8 := by decide
theorem witness_TypedReadsFollowTheirRule :
    typed.params.hasTyped = true ∧ typed.extent.toNat ≤ 8 * typed.params.capBytes.val ∧
      (24 : Word).toNat + 8 ≤ typed.extent.toNat ∧ typed.extent.toNat < (25 : Word).toNat + 8 ∧
      (16 : Word).toNat + 16 ≤ typed.extent.toNat ∧ typed.extent.toNat < (17 : Word).toNat + 16 ∧
      (0 : Word).toNat + 32 ≤ typed.extent.toNat ∧ typed.extent.toNat < (1 : Word).toNat + 32 := by decide
theorem witness_TypedReadsAbsentAreIllegal :
    { w1 with params := untyped }.params.hasTyped = false ∧ hdrOp (0x240 : Word) = 0x40 ∧ hdrOp (0x41 : Word) = 0x41 ∧
      hdrOp (0x42 : Word) = 0x42 := by decide
theorem witness_TypedReadsAgreeWithReadnAndWrites :
    typed.params.hasTyped = true ∧ typed.Inv ∧
      (∃ t, exec (.rdu8 (some 24)) typed = .next (responded (okResponse 0x34) t)) ∧
      (∃ t, exec (.rdu16 (some 4)) typed = .next (responded (okResponse 0x5F01) t)) ∧
      (∃ t, exec (.rdu32 (some 0)) typed = .next (responded (okResponse 0xA5F01234) t)) ∧
      (0xFF : Word).toNat < 2 ^ 8 ∧ (32760 : Word).toNat + 8 ≤ 8 * typed.params.capBytes.val ∧
      (0xFFFF : Word).toNat < 2 ^ 16 ∧ (32752 : Word).toNat + 16 ≤ 8 * typed.params.capBytes.val ∧
      (32736 : Word).toNat + 32 ≤ 8 * typed.params.capBytes.val :=
  ⟨rfl, typed_inv, ⟨_, rfl⟩, ⟨_, rfl⟩, ⟨_, rfl⟩, by decide, by decide, by decide, by decide, by decide⟩
theorem witness_InitConstructsAnEmptyBuffer :
    (32768 : Word).toNat ≤ 8 * w1.params.capBytes.val ∧ 8 * w1.params.capBytes.val < (32769 : Word).toNat ∧
      w1.params.initExtentMode = .rounded ∧
      { w1 with params := { w1.params with initExtentMode := .zero } }.params.initExtentMode = .zero := by decide

end Sys2Proof.Machine.Tests
end

section
/-! PROOFS. Reads whose range ends above `CAP_BITS` (spec/00_scope.md R12, spec/10_state.md R27; log entry 6). -/

namespace Sys2Proof.Machine

/-- A range inside `EXTENT` that ends above `CAP_BITS`: the last byte it visits does not exist (R12). -/
theorem readRange_noSuchByte {pos req : Nat} {s : State} (hpos : pos < req) (hext : req ≤ s.extent.toNat)
    (hcap : capBits s.params < req) : readRange pos req s = .error (.noSuchByte ((req - 1) / 8)) := by
  unfold readRange
  rw [Nat.min_eq_left hext]
  exact if_pos ⟨hpos, hcap⟩

/-- READ, READFROM and READN pass that stop on (R154 to R156). -/
theorem answerRange_noSuchByte {pos req : Nat} {s : State} (hpos : pos < req) (hext : req ≤ s.extent.toNat)
    (hcap : capBits s.params < req) (s' : State) :
    answerRange pos req s s' = .fault (.noSuchByte ((req - 1) / 8)) := by
  unfold answerRange
  rw [readRange_noSuchByte hpos hext hcap]

/-- A typed read at a position passes it on, once the row exists and enough bits are left (R186). -/
theorem typedRead_noSuchByte {w : Nat} {pos : Word} {s : State} (hw : 0 < w) (htyped : s.params.hasTyped = true)
    (hext : pos.toNat + w ≤ s.extent.toNat) (hcap : capBits s.params < pos.toNat + w) :
    typedRead w (some pos) s = .fault (.noSuchByte ((pos.toNat + w - 1) / 8)) := by
  have hdata : ¬ s.extent.toNat < pos.toNat + w := Nat.not_lt.2 hext
  have hrange := readRange_noSuchByte (Nat.lt_add_of_pos_right hw) hext hcap
  simp [typedRead, htyped, hdata, hrange]

/-- READN in the same case: a length above 0 is its own unsigned value (R156). -/
theorem execReadn_noSuchByte {pos len : Word} {s : State} (hlen : 0 < len.toInt)
    (hext : pos.toNat + len.toNat ≤ s.extent.toNat) (hcap : capBits s.params < pos.toNat + len.toNat) :
    execReadn pos len s = .fault (.noSuchByte ((pos.toNat + len.toNat - 1) / 8)) := by
  have hnat : len.toInt.toNat = len.toNat := by
    rw [BitVec.toInt_eq_toNat_cond] at hlen ⊢
    split at hlen <;> omega
  unfold execReadn
  rw [if_neg (by omega), hnat]
  exact answerRange_noSuchByte (by omega) hext hcap _

/-- Settles O47: every read command goes through `readRange`, which stops where its range ends above `CAP_BITS`; the
invariants hold `EXTENT` at or below `CAP_BITS`. -/
theorem readPastStorageStops : Obligations.ReadPastStorageStops := by
  intro s pos len (hcap : capBits s.params < s.extent.toNat)
  refine ⟨fun hinv => ?notInv, fun hpos => ?read, fun hpos => ?readfrom, fun hlen hext hend => ?readn,
    fun htyped hext hend => ?typed⟩
  case notInv => exact absurd hinv.extent_le_cap (Nat.not_le.2 hcap)
  case read => exact answerRange_noSuchByte hpos le_rfl hcap _
  case readfrom => exact answerRange_noSuchByte hpos le_rfl hcap _
  case readn => exact execReadn_noSuchByte hlen hext hend
  case typed =>
    have stops (w : Nat) (hw : 8 ≤ w) (hw' : w ≤ 32) :
        typedRead w (some pos) s = .fault (.noSuchByte ((pos.toNat + w - 1) / 8)) :=
      typedRead_noSuchByte (by omega) htyped (by omega) (by unfold capBits; omega)
    exact ⟨stops 8 (by omega) (by omega), stops 16 (by omega) (by omega), stops 32 (by omega) (by omega)⟩

end Sys2Proof.Machine
end

section
/-! PROOFS. The state family (spec/10_state.md): reset (R36), the status outputs (R31), what a command and a step can do,
the invariants (R32, R33) and the monotonic registers (R35). -/

namespace Sys2Proof.Machine

/-! ### Reset and the status outputs -/

/-- Storage without a listed byte reads 0x00 everywhere (R36). -/
theorem memRead_of_storage_nil {s : State} (h : s.storage = []) (i : Nat) : memRead i s = 0 := by
  unfold memRead
  rw [h]
  rfl

/-- R21: the cursor's offset on 32 bits is the concatenation of its halves. -/
theorem ofNat_curOff_eq_append (s : State) :
    BitVec.ofNat 32 (curOff s) = (s.curByte ++ s.curSub : BitVec (29 + 3)) := by
  apply BitVec.eq_of_toNat_eq
  rw [BitVec.toNat_append, ← Nat.shiftLeft_add_eq_or_of_lt s.curSub.isLt, BitVec.toNat_ofNat,
    Nat.mod_eq_of_lt (curOff_lt s), Nat.shiftLeft_eq]
  unfold curOff join
  omega

/-- R26: `ST_ENDIAN` = 0 is big-endian. -/
theorem stEndian_eq_zero_iff (s : State) : stEndian s = 0 ↔ s.endian = .big := by
  unfold stEndian
  cases s.endian <;> decide

/-- Settles O1: the registers by definition, and no byte of storage is listed. -/
theorem resetHoldsSpecValues : Obligations.ResetHoldsSpecValues :=
  ⟨rfl, rfl, rfl, rfl, rfl, memRead_of_storage_nil rfl⟩

/-- Settles O29: five outputs are registers or a code of one, `ST_OFF` is the concatenation of the cursor's halves. -/
theorem statusOutputsShowRegisters : Obligations.StatusOutputsShowRegisters :=
  fun s => ⟨rfl, rfl, ofNat_curOff_eq_append s, rfl, rfl, stEndian_eq_zero_iff s⟩

/-! ### What a command can do -/

/-- The state a completed INIT leaves, its response apart (R200, R201). -/
def constructed (e : Endian) (n : Word) (s : State) : State :=
  setEndian e (setCursor (0, 0)
    { s with storage := [], lenBytes := BitVec.ofNat 30 (ceil8 n.toNat),
             extent := BitVec.ofNat 32 (initExtent s.params n.toNat) })

/-- Everything a command that answers a next state can have done to `s`. -/
inductive CommandEffect (i : Instr) (s : State) : State → Prop where
  /-- a fault: one response and nothing else (R212, R213) -/
  | faulted (f : FaultCode) : CommandEffect i s (responded (faultResponse f) s)
  /-- no bit written: at most the cursor moves -/
  | moved (r : Response) (cursor : Nat × Nat) (writesNothing : ∀ start L, writeTarget i s = some (start, L) → L = 0) :
      CommandEffect i s (responded r (setCursor cursor s))
  /-- a window of at least one bit below `CAP_BITS` written (R133, R138) -/
  | written (b sub L : Nat) (pat : Pattern) (cursor : Nat × Nat) (target : writeTarget i s = some (join b sub, L))
      (subLe : sub ≤ 7) (lengthPos : 1 ≤ L) (fits : join b sub + L ≤ capBits s.params) :
      CommandEffect i s (responded (okResponse 0) (setCursor cursor (writeWindow b sub L pat s).2))
  /-- the buffer constructed anew (R200) -/
  | constructed (e : Endian) (n : Word) (command : i = .init e n) (fits : n.toNat ≤ capBits s.params) :
      CommandEffect i s (responded (okResponse 0) (constructed e n s))

theorem setCursor_self (s : State) : setCursor (s.curByte.toNat, s.curSub.toNat) s = s := by
  simp [setCursor]

section
variable {i : Instr} {s t : State}

/-- A check that raises: the fault, or what follows the check. -/
theorem CommandEffect.of_guard {c : Prop} [Decidable c] {f : FaultCode} {r : Result}
    (h : (if c then raise f s else r) = .next t) (hr : ¬ c → r = .next t → CommandEffect i s t) :
    CommandEffect i s t := by
  split at h
  · cases h
    exact .faulted f
  · exact hr ‹_› h

/-- A command that writes no bit and completes with a value, the cursor moved. -/
theorem CommandEffect.of_respond_setCursor {v : Nat} {cursor : Nat × Nat}
    (hno : ∀ start L, writeTarget i s = some (start, L) → L = 0) (h : respond v (setCursor cursor s) = .next t) :
    CommandEffect i s t := by
  cases h
  exact .moved _ _ hno

/-- The same with the cursor where it was. -/
theorem CommandEffect.of_respond {v : Nat} (hno : ∀ start L, writeTarget i s = some (start, L) → L = 0)
    (h : respond v s = .next t) : CommandEffect i s t :=
  .of_respond_setCursor hno ((setCursor_self s).symm ▸ h)

/-- A range read, answered with the cursor moved (R155, R156); where it stops there is no next state. -/
theorem CommandEffect.of_answerRange {pos req : Nat} {cursor : Nat × Nat}
    (hno : ∀ start L, writeTarget i s = some (start, L) → L = 0)
    (h : answerRange pos req s (setCursor cursor s) = .next t) : CommandEffect i s t := by
  unfold answerRange at h
  split at h
  · cases h
    exact .moved _ _ hno
  · cases h

/-- A typed read (R186). -/
theorem CommandEffect.of_typedRead {w : Nat} {pos : Option Word}
    (hno : ∀ start L, writeTarget i s = some (start, L) → L = 0) (h : typedRead w pos s = .next t) :
    CommandEffect i s t := by
  refine .of_guard h fun _ h => .of_guard h fun _ h => ?_
  split at h
  · cases h
  · cases pos with
    | none => exact .of_respond hno h
    | some a => exact .of_respond_setCursor hno h

/-- The end of a positioned write (R170), its window the one the command names. -/
theorem CommandEffect.of_boundedWrite {b sub L : Nat} {pat : Pattern} (hsub : sub ≤ 7)
    (htarget : writeTarget i s = some (join b sub, L)) (h : boundedWrite b sub L pat s = .next t) :
    CommandEffect i s t := by
  obtain ⟨-, -, heq⟩ | ⟨hzero, heq⟩ | ⟨hpos, hcap, heq⟩ := boundedWrite_cases b sub L pat s <;>
    rw [heq] at h <;> cases h
  · exact .faulted _
  · refine .moved _ _ fun start L' hL' => ?_
    rw [htarget] at hL'
    cases hL'
    exact hzero
  · exact .written b sub L pat _ htarget hsub hpos hcap

/-- WRITE (R143). -/
theorem CommandEffect.of_execWrite {len : Option Word} {src : SourceTag} {pat : Pattern}
    (h : execWrite len src pat s = .next t) : CommandEffect (.write len src pat) s t := by
  refine .of_guard h fun _ h => ?_
  dsimp only at h
  split at h
  · rename_i hzero
    refine .of_respond (fun start L hL => ?_) h
    cases hL
    exact hzero
  · rename_i hpos
    refine .of_guard h fun hcap h => ?_
    cases h
    exact .written _ _ _ pat _ rfl (Nat.le_of_lt_succ s.curSub.isLt) (Nat.pos_of_ne_zero hpos) (Nat.not_lt.1 hcap)

/-- INIT (R200). -/
theorem CommandEffect.of_execInit {e : Endian} {n : Word} (h : execInit e n s = .next t) :
    CommandEffect (.init e n) s t := by
  refine .of_guard h fun hcap h => ?_
  cases h
  exact .constructed e n rfl (Nat.not_lt.1 hcap)

end

/-- An offset is the join of its byte and sub-bit index (R102). -/
theorem join_div_mod (o : Nat) : join (o / 8) (o % 8) = o := by
  unfold join
  omega

/-- A reduced sub-bit operand fits `CUR_SUB` (R103). -/
theorem normsub_le (r : Nat) : normsub r ≤ 7 := by
  unfold normsub
  omega

/-- Every command that answers a next state did one of the four things. -/
theorem exec_effect {i : Instr} {s t : State} (h : exec i s = .next t) : CommandEffect i s t := by
  cases i with
  | init e n => exact .of_execInit h
  | getoff => exact .of_respond nofun h
  | setabs off => exact .of_respond_setCursor nofun h
  | setpair byte sub => exact .of_guard h fun _ h => .of_respond_setCursor nofun h
  | mvstart => exact .of_respond_setCursor nofun h
  | mvend => exact .of_respond_setCursor nofun h
  | advbyte => exact .of_guard h fun _ h => .of_respond_setCursor nofun h
  | write len src pat => exact .of_execWrite h
  | writeatAbs pos len src pat =>
    refine .of_guard h fun _ h => .of_boundedWrite (by omega) ?_ h
    rw [join_div_mod]
    rfl
  | writeatPair byte sub len src pat =>
    exact .of_guard h fun _ h => .of_guard h fun _ h => .of_boundedWrite (normsub_le _) rfl h
  | writerange start stop src pat =>
    refine .of_guard h fun _ h => .of_boundedWrite (by omega) ?_ h
    rw [join_div_mod]
    show some (start.toNat, stop.toNat - start.toNat) = _
    congr 2
    split <;> omega
  | read => exact .of_answerRange nofun ((setCursor_self s).symm ▸ h)
  | readfrom pos => exact .of_answerRange nofun h
  | readn pos len => exact .of_guard h fun _ h => .of_answerRange nofun h
  | rdu8 pos => exact .of_typedRead nofun h
  | rdu16 pos => exact .of_typedRead nofun h
  | rdu32 pos => exact .of_typedRead nofun h

/-! ### What a step can do -/

/-- Everything a step that answers a next state can have done (R230, R240, R77). -/
theorem step_cases {s t : State} (h : step s = .next t) :
    t = s ∨
    (∃ rest, s.inputs = .rst :: rest ∧
      t = { State.reset with params := s.params, inputs := rest, responses := s.responses }) ∨
    (∃ c rest, s.inputs = .command c :: rest ∧
      t = responded (faultResponse .illegalCommand) { s with inputs := rest }) ∨
    (∃ c rest i, s.inputs = .command c :: rest ∧ decode s.params c = .ok i ∧
      exec i { s with inputs := rest } = .next t) := by
  unfold step takeInput at h
  match hin : s.inputs with
  | [] =>
    rw [hin] at h
    cases h
    exact .inl rfl
  | .rst :: rest =>
    rw [hin] at h
    cases h
    exact .inr (.inl ⟨rest, rfl, rfl⟩)
  | .command c :: rest =>
    rw [hin] at h
    dsimp only at h
    match hdec : decode s.params c with
    | .error e =>
      rw [hdec] at h
      cases h
      exact .inr (.inr (.inl ⟨c, rest, rfl, rfl⟩))
    | .ok i =>
      rw [hdec] at h
      exact .inr (.inr (.inr ⟨c, rest, i, rfl, hdec, h⟩))

/-! ### The invariants -/

/-- Where no byte is listed the invariant is the order of `EXTENT`, `LEN_BYTES` and `CAP_BYTES`. -/
theorem inv_of_storage_nil {s : State} (hstorage : s.storage = []) (hlen : s.lenBytes.toNat ≤ s.params.capBytes.val)
    (hext : s.extent.toNat ≤ 8 * s.lenBytes.toNat) : s.Inv where
  canonical := by rw [hstorage]; rfl
  lenLeCap := hlen
  extentLeLen := hext
  zeroAboveExtent o _ := by
    unfold bitRead
    rw [memRead_of_storage_nil hstorage]
    exact BitVec.getLsbD_zero
  zeroAboveLen i _ := memRead_of_storage_nil hstorage i

/-- The four fields the invariant looks at are out of reach of the cursor and the response port. -/
theorem State.Inv.responded_setCursor {s : State} (h : s.Inv) (r : Response) (cursor : Nat × Nat) :
    (responded r (setCursor cursor s)).Inv :=
  h.of_same rfl rfl rfl rfl

/-- INIT establishes the invariant from any state: `ceil8(n)` bytes fit, and `EXTENT` is 0 or all their bits (R200, R201). -/
theorem constructed_inv (e : Endian) {n : Word} {s : State} (hfits : n.toNat ≤ capBits s.params) :
    (constructed e n s).Inv := by
  have hcap := s.params.capBytes.isLt
  have hceil : ceil8 n.toNat ≤ s.params.capBytes.val := by
    unfold ceil8
    unfold capBits at hfits
    omega
  have hextent : initExtent s.params n.toNat ≤ 8 * ceil8 n.toNat := by
    unfold initExtent
    split <;> omega
  have hlenNat : (constructed e n s).lenBytes.toNat = ceil8 n.toNat := by
    show (BitVec.ofNat 30 (ceil8 n.toNat)).toNat = _
    rw [BitVec.toNat_ofNat, Nat.mod_eq_of_lt (by omega)]
  have hextNat : (constructed e n s).extent.toNat = initExtent s.params n.toNat := by
    show (BitVec.ofNat 32 (initExtent s.params n.toNat)).toNat = _
    rw [BitVec.toNat_ofNat, Nat.mod_eq_of_lt (by omega)]
  exact inv_of_storage_nil rfl (hlenNat ▸ hceil) (hextNat ▸ hlenNat ▸ hextent)

/-- Every effect of a command keeps the invariant. -/
theorem CommandEffect.inv {i : Instr} {s t : State} (h : CommandEffect i s t) (hi : s.Inv) : t.Inv := by
  cases h with
  | faulted _ => exact hi.of_same rfl rfl rfl rfl
  | moved r cursor _ => exact hi.responded_setCursor r cursor
  | written b sub L pat cursor _ hsub hpos hcap => exact (writeWindow_inv pat hi hsub hpos hcap).responded_setCursor _ _
  | constructed e n _ hfits => exact (constructed_inv e hfits).of_same rfl rfl rfl rfl

/-- Settles O7: storage is empty and the two registers are 0. -/
theorem resetMeetsInvariants : Obligations.ResetMeetsInvariants :=
  inv_of_storage_nil rfl (Nat.zero_le _) (Nat.zero_le _)

/-- Settles O8: along the cases of a step; a command that runs keeps the invariant by its effect. -/
theorem stepKeepsInvariants : Obligations.StepKeepsInvariants := by
  intro s t hi hstep
  obtain rfl | ⟨rest, -, rfl⟩ | ⟨c, rest, -, rfl⟩ | ⟨c, rest, i, -, -, hexec⟩ := step_cases hstep
  · exact hi
  · exact inv_of_storage_nil rfl (Nat.zero_le _) (Nat.zero_le _)
  · exact hi.of_same rfl rfl rfl rfl
  · exact (exec_effect hexec).inv (hi.of_same rfl rfl rfl rfl)

/-! ### The registers that only grow -/

/-- R138 in every state, canonical or not. -/
theorem writeWindow_extent {b sub L : Nat} (pat : Pattern) {s : State} (hcap : join b sub + L ≤ capBits s.params) :
    (writeWindow b sub L pat s).2.extent.toNat = max s.extent.toNat (join b sub + L) := by
  obtain ⟨-, -, hframe, -⟩ := writerCore_frame L b sub (rightAlign L (symbolsOf pat)) s
  have hlt := capBits_lt s.params
  have he := s.extent.isLt
  show (raiseExtent (join b sub + L) (writerCore L b sub (rightAlign L (symbolsOf pat)) s).2).extent.toNat = _
  rw [raiseExtent_extent, hframe, BitVec.toNat_ofNat, Nat.mod_eq_of_lt (by omega)]

/-- R55 in every state, canonical or not. -/
theorem writeWindow_lenBytes {b sub L : Nat} (pat : Pattern) {s : State} (hsub : sub ≤ 7) (hpos : 1 ≤ L)
    (hcap : join b sub + L ≤ capBits s.params) :
    (writeWindow b sub L pat s).2.lenBytes.toNat = max s.lenBytes.toNat (ceil8 (join b sub + L)) := by
  have hlen := length_rightAlign L (symbolsOf pat)
  show (writerCore L b sub (rightAlign L (symbolsOf pat)) s).2.lenBytes.toNat = _
  rw [writerCore_lenBytes hsub (by omega) (by omega) (by omega), hlen]

/-- A fault's response is never that of a command that completes: its `STATUS` is not 0 (R210). -/
theorem faultResponse_ne_okResponse (f : FaultCode) (v : Word) : faultResponse f ≠ okResponse v := by
  intro h
  have hcode : f.code = 0 := congrArg Response.status h
  revert hcode
  cases f <;> decide

/-- Settles O9: a fault and a move leave both registers, a written window raises them. -/
theorem extentAndLengthNeverDecrease : Obligations.ExtentAndLengthNeverDecrease := by
  intro i s t hinit hexec
  cases exec_effect hexec with
  | faulted f =>
    refine ⟨le_rfl, le_rfl, fun start L _ _ hresp => ?_⟩
    have hsame : faultResponse f = okResponse 0 := by simpa [responded] using hresp
    exact absurd hsame (faultResponse_ne_okResponse f 0)
  | moved r cursor hno =>
    refine ⟨le_rfl, le_rfl, fun start L htarget hpos _ => ?_⟩
    have hzero := hno start L htarget
    omega
  | written b sub L pat cursor htarget hsub hpos hcap =>
    have hext := writeWindow_extent pat hcap
    have hlen := writeWindow_lenBytes pat hsub hpos hcap
    refine ⟨hext ▸ le_max_left _ _, hlen ▸ le_max_left _ _, fun start L' htarget' _ _ => ?_⟩
    rw [htarget] at htarget'
    cases htarget'
    exact hext
  | constructed e n hi _ =>
    subst hi
    cases hinit

end Sys2Proof.Machine
end

section
/-! PROOFS. The memory family (spec/20_memory.md): the bit view and the byte view of one storage (R40), `ENDIAN` without
effect on a command (R42), and the frame of a write (R45). -/

namespace Sys2Proof.Machine

/-! ### ENDIAN -/

/-- What a meaning answers, with `ENDIAN` replaced in the next state. -/
def answerWithEndian (e : Endian) : Result → Result
  | .next s => .next (setEndian e s)
  | .fault f => .fault f
  | .refused r => .refused r

/-- The writer core reaches the state through `MemRead` and `MemWrite` alone (R133): it commutes with every change of the
state that both commute with. -/
theorem writerCore_comm {f : State → State} (hread : ∀ i s, memRead i (f s) = memRead i s)
    (hwrite : ∀ i v s, memWrite i v (f s) = f (memWrite i v s)) (k b sub : Nat) (W : BitString) (s : State) :
    writerCore k b sub W (f s) = ((writerCore k b sub W s).1, f (writerCore k b sub W s).2) := by
  induction k generalizing b sub W s with
  | zero => rfl
  | succ k ih =>
    unfold writerCore
    split
    · rfl
    · dsimp only
      rw [hread, hwrite]
      exact ih _ _ _ _

section
variable {e : Endian} {s : State}

theorem writeWindow_setEndian (b sub L : Nat) (pat : Pattern) :
    writeWindow b sub L pat (setEndian e s) =
      ((writeWindow b sub L pat s).1, setEndian e (writeWindow b sub L pat s).2) := by
  unfold writeWindow
  rw [writerCore_comm (f := setEndian e) (fun _ _ => rfl) (fun _ _ _ => rfl)]
  rfl

/-- A check that raises: what follows the check decides. -/
theorem guard_setEndian {c : Prop} [Decidable c] {f : FaultCode} {r r' : Result} (h : r' = answerWithEndian e r) :
    (if c then raise f (setEndian e s) else r') = answerWithEndian e (if c then raise f s else r) := by
  split
  · rfl
  · exact h

theorem boundedWrite_setEndian (b sub L : Nat) (pat : Pattern) :
    boundedWrite b sub L pat (setEndian e s) = answerWithEndian e (boundedWrite b sub L pat s) := by
  refine guard_setEndian ?_
  rw [writeWindow_setEndian]
  split <;> rfl

theorem execWrite_setEndian (len : Option Word) (src : SourceTag) (pat : Pattern) :
    execWrite len src pat (setEndian e s) = answerWithEndian e (execWrite len src pat s) := by
  refine guard_setEndian ?_
  dsimp only
  split
  · rfl
  · refine guard_setEndian ?_
    rw [writeWindow_setEndian]
    rfl

@[simp] theorem curOff_setEndian : curOff (setEndian e s) = curOff s := rfl

/-- What a read visits and whether it exists does not depend on the flag (R151). -/
@[simp] theorem readRange_setEndian (pos req : Nat) : readRange pos req (setEndian e s) = readRange pos req s := rfl

theorem answerRange_setEndian (pos req : Nat) (s' : State) :
    answerRange pos req (setEndian e s) (setEndian e s') = answerWithEndian e (answerRange pos req s s') := by
  unfold answerRange
  rw [readRange_setEndian]
  split <;> rfl

theorem typedRead_setEndian (w : Nat) (pos : Option Word) :
    typedRead w pos (setEndian e s) = answerWithEndian e (typedRead w pos s) := by
  refine guard_setEndian (guard_setEndian ?_)
  rw [readRange_setEndian, curOff_setEndian]
  split
  · rfl
  · cases pos <;> rfl

/-- A command other than INIT runs as it does with any other `ENDIAN`, the flag passed through (R26, R42). -/
theorem exec_setEndian {i : Instr} (hinit : isInit i = false) :
    exec i (setEndian e s) = answerWithEndian e (exec i s) := by
  cases i with
  | init => cases hinit
  | getoff => rfl
  | setabs off => rfl
  | setpair byte sub => exact guard_setEndian rfl
  | mvstart => rfl
  | mvend => rfl
  | advbyte => exact guard_setEndian rfl
  | write len src pat => exact execWrite_setEndian len src pat
  | writeatAbs pos len src pat => exact guard_setEndian (boundedWrite_setEndian _ _ _ pat)
  | writeatPair byte sub len src pat => exact guard_setEndian (guard_setEndian (boundedWrite_setEndian _ _ _ pat))
  | writerange start stop src pat => exact guard_setEndian (boundedWrite_setEndian _ _ _ pat)
  | read => exact answerRange_setEndian _ _ s
  | readfrom pos => exact answerRange_setEndian _ _ (setCursor (split pos.toNat) s)
  | readn pos len => exact guard_setEndian (answerRange_setEndian _ _ (setCursor (split pos.toNat) s))
  | rdu8 pos => exact typedRead_setEndian 8 pos
  | rdu16 pos => exact typedRead_setEndian 16 pos
  | rdu32 pos => exact typedRead_setEndian 32 pos

end

/-- Settles O11: replacing the flag before a command or after it is the same. -/
theorem endianIsReadByNoCommand : Obligations.EndianIsReadByNoCommand := by
  intro i s t e hinit hexec
  have hcomm : exec i (setEndian e s) = answerWithEndian e (exec i s) := exec_setEndian hinit
  rw [hexec] at hcomm
  exact hcomm

/-! ### The frame of a write -/

/-- A window write leaves the record of responses to the command around it. -/
theorem writeWindow_responses (b sub L : Nat) (pat : Pattern) (s : State) :
    (writeWindow b sub L pat s).2.responses = s.responses := by
  obtain ⟨-, -, -, -, -, -, hresp⟩ := writerCore_frame L b sub (rightAlign L (symbolsOf pat)) s
  exact hresp

/-- Settles O34: a fault and a move keep storage; a written window has at least one bit, is answered by a completion, and is
the window the command names. -/
theorem writesStayInsideTheirWindow : Obligations.WritesStayInsideTheirWindow := by
  intro i s t start L hwf htarget hexec
  cases exec_effect hexec with
  | faulted f => exact ⟨fun _ _ => rfl, fun _ => rfl, fun _ => rfl⟩
  | moved r cursor _ => exact ⟨fun _ _ => rfl, fun _ => rfl, fun _ => rfl⟩
  | written b sub L' pat cursor htarget' hsub hpos hcap =>
    rw [htarget] at htarget'
    cases htarget'
    refine ⟨(writeWindow_written pat hwf hsub hpos hcap).outside, fun hzero => ?_, fun hresp => ?_⟩
    · omega
    · have hdone : (writeWindow b sub L pat s).2.responses ++ [okResponse 0] = s.responses ++ [okResponse 0] := by
        rw [writeWindow_responses]
      exact absurd hdone hresp
  | constructed e n hi _ =>
    subst hi
    cases htarget

/-! ### The bit view and the byte view -/

/-- Bit k of byte i is the offset `8 * i + (7 - k)` (R40). -/
theorem getLsbD_memRead (i : Nat) (s : State) {k : Nat} (hk : k < 8) :
    (memRead i s).getLsbD k = bitRead (8 * i + (7 - k)) s := by
  unfold bitRead
  congr 2 <;> omega

/-- The weight 128 / 2^r (R10): the one bit 7 - r. -/
theorem getLsbD_weight {r : Nat} (hr : r ≤ 7) (k : Nat) : ((128#8) >>> r).getLsbD k = decide (k = 7 - r) := by
  have hpow : 128#8 = BitVec.twoPow 8 7 := rfl
  rw [BitVec.getLsbD_ushiftRight, hpow, BitVec.getLsbD_twoPow, Bool.eq_iff_iff]
  simp only [Bool.and_eq_true, decide_eq_true_eq]
  omega

/-- A window of a single one at offset o: its byte gains the weight of o. -/
theorem WindowWritten.memRead_single_one {o : Nat} {s t : State} (h : WindowWritten o 1 ⟨1, 1⟩ s t) :
    memRead (o / 8) t = memRead (o / 8) s ||| ((128#8) >>> (o % 8)) := by
  apply BitVec.eq_of_getLsbD_eq
  intro k hk
  rw [BitVec.getLsbD_or, getLsbD_weight (by omega), getLsbD_memRead _ t hk, getLsbD_memRead _ s hk]
  by_cases hbit : k = 7 - o % 8
  · have ho : 8 * (o / 8) + (7 - k) = o := by omega
    have hone : bitRead o t = true := h.inWindow 0 (by decide)
    rw [ho, hone, decide_eq_true hbit, Bool.or_true]
  · rw [h.outside (8 * (o / 8) + (7 - k)) (by omega), decide_eq_false hbit, Bool.or_false]

/-- What a window write leaves is out of reach of the cursor and the response port. -/
theorem WindowWritten.responded_setCursor {start L : Nat} {pat : Pattern} {s t : State}
    (h : WindowWritten start L pat s t) (r : Response) (cursor : Nat × Nat) :
    WindowWritten start L pat s (responded r (setCursor cursor t)) :=
  { h with }

/-- WRITEAT.ABS of one single one inside storage completes, its window written (R171). -/
theorem exec_writeatAbs_single_one {s : State} {o : Word} (hwf : s.storage.wf = true)
    (hcap : o.toNat + 1 ≤ capBits s.params) :
    ∃ t, exec (.writeatAbs o none .rawBitPattern ⟨1, 1⟩) s = .next t ∧ WindowWritten o.toNat 1 ⟨1, 1⟩ s t := by
  have hjoin := join_div_mod o.toNat
  obtain ⟨-, hfull, -⟩ | ⟨hzero, -⟩ | ⟨hpos, hfits, heq⟩ :=
    boundedWrite_cases (o.toNat / 8) (o.toNat % 8) 1 ⟨1, 1⟩ s
  · omega
  · omega
  · have hwritten := writeWindow_written ⟨1, 1⟩ hwf (by omega) hpos hfits
    rw [hjoin] at hwritten
    exact ⟨_, heq, hwritten.responded_setCursor _ _⟩

/-- Settles O41: the write's window is the one bit, seen byte by byte. -/
theorem offsetNamesItsBitOfItsByte : Obligations.OffsetNamesItsBitOfItsByte := by
  intro s o hwf hcap
  obtain ⟨t, hexec, hwritten⟩ := exec_writeatAbs_single_one hwf hcap
  exact ⟨t, hexec, hwritten.memRead_single_one, fun i hi => hwritten.bytes i (by omega)⟩

end Sys2Proof.Machine
end

section
/-! PROOFS. The encoding family (spec/30_encoding.md): the opcode map against the header fields (R61, R62, R75), decoding
against encoding, the operands and pattern bits without effect (R63, R67), and the headers that no row matches (R77). -/

namespace Sys2Proof.Machine

open Laws.EncodedRow (opcodeOf)

/-! ### A header is its fields -/

theorem hdrOp_packHdr (op : Byte) (hl hp : Bool) (src : BitVec 2) (e : Bool) (sub : Byte) :
    hdrOp (packHdr op hl hp src e sub) = op := by
  apply BitVec.eq_of_getLsbD_eq
  intro i hi
  unfold hdrOp
  rw [BitVec.getLsbD_extractLsb', getLsbD_packHdr _ _ _ _ _ _ (by omega), if_pos (by omega)]
  simp [hi]

/-- The reserved bits 15:13 of a packed header (R61). -/
theorem reservedLow_packHdr (op : Byte) (hl hp : Bool) (src : BitVec 2) (e : Bool) (sub : Byte) :
    (packHdr op hl hp src e sub).extractLsb' 13 3 = 0 := by
  apply BitVec.eq_of_getLsbD_eq
  intro i hi
  rw [BitVec.getLsbD_extractLsb', getLsbD_packHdr _ _ _ _ _ _ (by omega)]
  rw [if_neg (by omega), if_neg (by omega), if_neg (by omega), if_neg (by omega), if_neg (by omega), if_neg (by omega)]
  simp

/-- The reserved bits 31:24 of a packed header (R61). -/
theorem reservedHigh_packHdr (op : Byte) (hl hp : Bool) (src : BitVec 2) (e : Bool) (sub : Byte) :
    (packHdr op hl hp src e sub).extractLsb' 24 8 = 0 := by
  apply BitVec.eq_of_getLsbD_eq
  intro i hi
  rw [BitVec.getLsbD_extractLsb', getLsbD_packHdr _ _ _ _ _ _ (by omega)]
  rw [if_neg (by omega), if_neg (by omega), if_neg (by omega), if_neg (by omega), if_neg (by omega), if_pos (by omega)]
  rw [BitVec.getLsbD_of_ge _ _ (by omega)]
  simp

/-- Words with one extracted field have the field's bits in common. -/
theorem getLsbD_eq_of_extractLsb'_eq {h h' : Word} {start len i : Nat}
    (hfield : h.extractLsb' start len = h'.extractLsb' start len) (hlow : start ≤ i) (hhigh : i < start + len) :
    h.getLsbD i = h'.getLsbD i := by
  have hbit := congrArg (fun v => v.getLsbD (i - start)) hfield
  have hlt : i - start < len := by omega
  simpa [BitVec.getLsbD_extractLsb', hlt, Nat.add_sub_cancel' hlow] using hbit

/-- R61: the six fields and the two reserved ranges cover the header. -/
theorem hdr_ext {h h' : Word} (hop : hdrOp h = hdrOp h') (hhl : hdrHl h = hdrHl h') (hhp : hdrHp h = hdrHp h')
    (hsrc : hdrSrcBits h = hdrSrcBits h') (he : hdrEBit h = hdrEBit h') (hsub : hdrSub h = hdrSub h')
    (hlow : h.extractLsb' 13 3 = h'.extractLsb' 13 3) (hhigh : h.extractLsb' 24 8 = h'.extractLsb' 24 8) : h = h' := by
  apply BitVec.eq_of_getLsbD_eq
  intro i hi
  have hcover : i < 8 ∨ i = 8 ∨ i = 9 ∨ (10 ≤ i ∧ i < 12) ∨ i = 12 ∨ (13 ≤ i ∧ i < 16) ∨ (16 ≤ i ∧ i < 24) ∨
      24 ≤ i := by
    omega
  obtain hi | rfl | rfl | hi | rfl | hi | hi | hi := hcover
  · exact getLsbD_eq_of_extractLsb'_eq hop (by omega) (by omega)
  · exact hhl
  · exact hhp
  · exact getLsbD_eq_of_extractLsb'_eq hsrc (by omega) (by omega)
  · exact he
  · exact getLsbD_eq_of_extractLsb'_eq hlow (by omega) (by omega)
  · exact getLsbD_eq_of_extractLsb'_eq hsub (by omega) (by omega)
  · exact getLsbD_eq_of_extractLsb'_eq hhigh (by omega) (by omega)

/-- R61, R80: which header the fields make. -/
theorem packHdr_eq_iff {op : Byte} {hl hp : Bool} {src : BitVec 2} {e : Bool} {sub : Byte} {h : Word} :
    packHdr op hl hp src e sub = h ↔
      hdrOp h = op ∧ hdrHl h = hl ∧ hdrHp h = hp ∧ hdrSrcBits h = src ∧ hdrEBit h = e ∧ hdrSub h = sub ∧
        h.extractLsb' 13 3 = 0 ∧ h.extractLsb' 24 8 = 0 := by
  constructor
  · rintro rfl
    exact ⟨hdrOp_packHdr .., hdrHl_packHdr .., hdrHp_packHdr .., hdrSrcBits_packHdr .., hdrEBit_packHdr ..,
      hdrSub_packHdr .., reservedLow_packHdr .., reservedHigh_packHdr ..⟩
  · rintro ⟨rfl, rfl, rfl, rfl, rfl, rfl, hlow, hhigh⟩
    apply hdr_ext
    · exact hdrOp_packHdr ..
    · exact hdrHl_packHdr ..
    · exact hdrHp_packHdr ..
    · exact hdrSrcBits_packHdr ..
    · exact hdrEBit_packHdr ..
    · exact hdrSub_packHdr ..
    · rw [reservedLow_packHdr, hlow]
    · rw [reservedHigh_packHdr, hhigh]

/-- The header with a row's `OP` and, of `h`, only the fields that the row uses (R62). -/
def usedFields (u : RowUse) (h : Word) : Word :=
  packHdr u.op (u.hl && hdrHl h) (u.hp && hdrHp h) (if u.src then hdrSrcBits h else 0) (u.e && hdrEBit h)
    (if u.sub then hdrSub h else 0)

/-- A field that is 0 unless used is the field or 0. -/
theorem unused_zero_iff {n : Nat} {used : Bool} {x : BitVec n} :
    x = (if used then x else 0) ↔ (used = false → x = 0) := by
  cases used <;> simp

/-- The same for a field of one bit. -/
theorem unused_false_iff {used x : Bool} : x = (used && x) ↔ (used = false → x = false) := by
  cases used <;> simp

/-- R62: a header fits a row when it holds nothing but the row's `OP` and the fields that the row uses. -/
theorem headerFits_iff_usedFields {op : Opcode} {h : Word} : HeaderFits op h ↔ usedFields (rowUse op) h = h := by
  unfold usedFields
  rw [packHdr_eq_iff, unused_false_iff, unused_false_iff, unused_zero_iff, unused_false_iff, unused_zero_iff]
  rfl

/-! ### The opcode map -/

/-- The bits of the header fields that a row uses (R75): those its mask leaves out. -/
def usedBits (u : RowUse) : Word := packHdr 0 u.hl u.hp (if u.src then 3 else 0) u.e (if u.sub then 0xFF else 0)

/-- A row of R75 computed from its columns `OP` and `used HDR fields`. -/
def rowFor (op : Opcode) : Row := ⟨op, ~~~usedBits (rowUse op), packHdr (rowUse op).op false false 0 false 0⟩

theorem eq_rowFor_of_mem {r : Row} (hr : r ∈ opcodeTable) : r = rowFor r.op := by
  have htable : ∀ r ∈ opcodeTable, r = rowFor r.op := by decide
  exact htable r hr

theorem rowFor_mem (op : Opcode) : rowFor op ∈ opcodeTable := by
  cases op <;> decide

/-- The `OP` bytes of the table are pairwise different (R75). -/
theorem row_eq_of_op_eq {r r' : Row} (hr : r ∈ opcodeTable) (hr' : r' ∈ opcodeTable)
    (hop : (rowUse r.op).op = (rowUse r'.op).op) : r = r' := by
  have hnodup : (opcodeTable.map fun r => (rowUse r.op).op).Nodup := by decide
  exact List.inj_on_of_nodup_map hnodup hr hr' hop

theorem extractLsb'_and_not {h m : Word} {start len : Nat} (hfits : start + len ≤ 32) :
    (h &&& ~~~m).extractLsb' start len = h.extractLsb' start len &&& ~~~(m.extractLsb' start len) := by
  apply BitVec.eq_of_getLsbD_eq
  intro i hi
  have hlt : start + i < 32 := by omega
  simp [hi, hlt]

theorem getLsbD_and_not {h m : Word} {i : Nat} (hi : i < 32) :
    (h &&& ~~~m).getLsbD i = (h.getLsbD i && !m.getLsbD i) := by
  simp [hi]

theorem and_not_zero {n : Nat} (x : BitVec n) : x &&& ~~~(0 : BitVec n) = x := by
  simp

/-- What a mask lets through of a field: nothing where the field is used, all of it elsewhere. -/
theorem and_not_eq_zero_iff {n : Nat} {used : Bool} {x ones : BitVec n} (hones : ones = BitVec.allOnes n) :
    x &&& ~~~(if used then ones else 0) = 0 ↔ (used = false → x = 0) := by
  subst hones
  cases used <;> simp

/-- The same for a field of one bit. -/
theorem and_not_eq_false_iff {used x : Bool} : (x && !used) = false ↔ (used = false → x = false) := by
  cases used <;> simp

/-- R61, R62, R75: the mask and match of a row, field by field. -/
theorem rowFor_selects_iff {op : Opcode} {h : Word} : (rowFor op).selects h = true ↔ HeaderFits op h := by
  have hsel : (rowFor op).selects h = true ↔
      packHdr (rowUse op).op false false 0 false 0 = h &&& ~~~usedBits (rowUse op) := by
    unfold Row.selects rowFor
    rw [beq_iff_eq, eq_comm]
  obtain ⟨hop, hhl, hhp, hsrc, he, hsub, hlow, hhigh⟩ := packHdr_eq_iff.1 (rfl : usedBits (rowUse op) = _)
  rw [hsel, packHdr_eq_iff]
  unfold HeaderFits
  simp only [hdrOp, hdrHl, hdrHp, hdrSrcBits, hdrEBit, hdrSub] at hop hhl hhp hsrc he hsub ⊢
  simp only [extractLsb'_and_not, getLsbD_and_not, Nat.reduceAdd, Nat.reduceLeDiff, Nat.reduceLT, hop, hhl, hhp, hsrc,
    he, hsub, hlow, hhigh, and_not_zero, and_not_eq_false_iff]
  rw [and_not_eq_zero_iff (by decide), and_not_eq_zero_iff (by decide)]

/-- Settles O17: two rows that select one header have its `OP` byte. -/
theorem opcodeRowsAreDisjoint : Obligations.OpcodeRowsAreDisjoint := by
  intro h r r' hr hr' hsel hsel'
  rw [eq_rowFor_of_mem hr, rowFor_selects_iff] at hsel
  rw [eq_rowFor_of_mem hr', rowFor_selects_iff] at hsel'
  exact row_eq_of_op_eq hr hr' (hsel.1.symm.trans hsel'.1)

/-- A row found for a header is a row of the table that selects it (R75). -/
theorem mem_and_selects_of_find {h : Word} {r : Row} (hfind : opcodeTable.find? (fun r => r.selects h) = some r) :
    r ∈ opcodeTable ∧ r.selects h = true :=
  ⟨List.mem_of_find?_eq_some hfind, List.find?_some (p := fun r : Row => r.selects h) hfind⟩

/-- A row that selects a header is the one found for it: no other row selects it (R75). -/
theorem find_of_selects {h : Word} {r : Row} (hr : r ∈ opcodeTable) (hsel : r.selects h = true) :
    opcodeTable.find? (fun r => r.selects h) = some r := by
  obtain ⟨r', hfind⟩ := Option.isSome_iff_exists.1 (List.find?_isSome (p := fun r : Row => r.selects h).2 ⟨r, hr, hsel⟩)
  obtain ⟨hr', hsel'⟩ := mem_and_selects_of_find hfind
  rw [hfind, opcodeRowsAreDisjoint h r' r hr' hr hsel' hsel]

/-- A typed read passes the decoder's second check under `HAS_TYPED` only (R77). -/
theorem typed_check_iff {op : Opcode} {p : Params} :
    (op.isTyped && !p.hasTyped) = false ↔ (op.isTyped = true → p.hasTyped = true) := by
  cases op.isTyped <;> simp

/-- R76: a header decodes to a row when the row selects it and exists in the configuration. -/
theorem rowOf_eq_ok_iff {p : Params} {h : Word} {op : Opcode} :
    rowOf p h = .ok op ↔ (rowFor op).selects h = true ∧ (op.isTyped = true → p.hasTyped = true) := by
  rw [← typed_check_iff]
  constructor
  · intro hrow
    unfold rowOf at hrow
    split at hrow
    · rename_i r hfind
      obtain ⟨hr, hsel⟩ := mem_and_selects_of_find hfind
      split at hrow
      · cases hrow
      · cases hrow
        rw [eq_rowFor_of_mem hr] at hsel
        exact ⟨hsel, Bool.eq_false_of_not_eq_true ‹_›⟩
    · split at hrow <;> cases hrow
  · rintro ⟨hsel, hcheck⟩
    have hfind := find_of_selects (rowFor_mem op) hsel
    have hnot : ((rowFor op).op.isTyped && !p.hasTyped) = false := hcheck
    unfold rowOf
    rw [hfind]
    simp only [hnot]
    rfl

/-- Settles O16: the row selects the header, field by field. -/
theorem opcodeMapAgreesWithHeaderFields : Obligations.OpcodeMapAgreesWithHeaderFields := by
  intro p h op
  rw [rowOf_eq_ok_iff, rowFor_selects_iff]

/-! ### Decoding and encoding -/

/-- R76: what the decoder answers for a command, the row and its operands apart. -/
theorem decode_eq_ok_iff {p : Params} {c : Command} {i : Instr} :
    decode p c = .ok i ↔ ∃ op, rowOf p c.hdr = .ok op ∧ instrOf op c = i := by
  unfold decode
  cases rowOf p c.hdr <;> simp

/-- R75, R77: a command exists in a configuration when its row does. -/
theorem wf_iff {p : Params} {i : Instr} : i.wf p = true ↔ ((opcodeOf i).isTyped = true → p.hasTyped = true) := by
  cases i <;> simp [Instr.wf, opcodeOf, Opcode.isTyped]

/-- The first row that selects an encoded header is the command's own (R75). -/
theorem encodedRow : (i : Instr) → Laws.EncodedRow.Statement i
  | .init e n => Laws.EncodedRow.init e n
  | .getoff => Laws.EncodedRow.getoff
  | .setabs off => Laws.EncodedRow.setabs off
  | .setpair byte sub => Laws.EncodedRow.setpair byte sub
  | .mvstart => Laws.EncodedRow.mvstart
  | .mvend => Laws.EncodedRow.mvend
  | .advbyte => Laws.EncodedRow.advbyte
  | .write len src pat => Laws.EncodedRow.write len src pat
  | .writeatAbs pos len src pat => Laws.EncodedRow.writeatAbs pos len src pat
  | .writeatPair byte sub len src pat => Laws.EncodedRow.writeatPair byte sub len src pat
  | .writerange start stop src pat => Laws.EncodedRow.writerange start stop src pat
  | .read => Laws.EncodedRow.read
  | .readfrom pos => Laws.EncodedRow.readfrom pos
  | .readn pos len => Laws.EncodedRow.readn pos len
  | .rdu8 pos => Laws.EncodedRow.rdu8 pos
  | .rdu16 pos => Laws.EncodedRow.rdu16 pos
  | .rdu32 pos => Laws.EncodedRow.rdu32 pos

/-- So it decodes to that row wherever the command exists. -/
theorem rowOf_encodeHdr {p : Params} {i : Instr} (hwf : i.wf p = true) : rowOf p (encodeHdr i) = .ok (opcodeOf i) := by
  obtain ⟨r, hfind, hop⟩ := Option.map_eq_some_iff.1 (encodedRow i)
  obtain ⟨hr, hsel⟩ := mem_and_selects_of_find hfind
  rw [eq_rowFor_of_mem hr, hop] at hsel
  exact rowOf_eq_ok_iff.2 ⟨hsel, wf_iff.1 hwf⟩

/-- R61: a length sent on `B` with `HL` is read back. -/
theorem optionalLength_packHdr (op : Byte) (hp : Bool) (src : BitVec 2) (e : Bool) (sub : Byte) (a : Word)
    (len : Option Word) (pat : Pattern) :
    optionalLength ⟨packHdr op len.isSome hp src e sub, a, len.getD 0, pat⟩ = len := by
  unfold optionalLength
  rw [hdrHl_packHdr]
  cases len <;> rfl

/-- R61: a position sent on `A` with `HP` is read back. -/
theorem optionalPosition_packHdr (op : Byte) (hl : Bool) (src : BitVec 2) (e : Bool) (sub : Byte) (pos : Option Word)
    (b : Word) (pat : Pattern) :
    optionalPosition ⟨packHdr op hl pos.isSome src e sub, pos.getD 0, b, pat⟩ = pos := by
  unfold optionalPosition
  rw [hdrHp_packHdr]
  cases pos <;> rfl

/-- R66: the source tag of an encoded write. -/
theorem sourceTag_packHdr (op : Byte) (hl hp : Bool) (src : SourceTag) (e : Bool) (sub : Byte) :
    SourceTag.ofBits (hdrSrcBits (packHdr op hl hp src.toBits e sub)) = src := by
  rw [hdrSrcBits_packHdr, SourceTag.ofBits_toBits]

/-- The operands of an encoded command are the command's own (R61, R64 to R69). -/
theorem instrOf_encode (i : Instr) : instrOf (opcodeOf i) (encode i) = i := by
  cases i with
  | init e n => simp only [opcodeOf, instrOf, encode, encodeHdr, encodeA, hdrEBit_packHdr, Endian.ofBit_toBit]
  | getoff => rfl
  | setabs off => rfl
  | setpair byte sub => simp only [opcodeOf, instrOf, encode, encodeHdr, encodeA, hdrSub_packHdr]
  | mvstart => rfl
  | mvend => rfl
  | advbyte => rfl
  | write len src pat =>
    simp only [opcodeOf, instrOf, encode, encodeHdr, encodeB, encodePat, optionalLength_packHdr, sourceTag_packHdr]
  | writeatAbs pos len src pat =>
    simp only [opcodeOf, instrOf, encode, encodeHdr, encodeA, encodeB, encodePat, optionalLength_packHdr, sourceTag_packHdr]
  | writeatPair byte sub len src pat =>
    simp only [opcodeOf, instrOf, encode, encodeHdr, encodeA, encodeB, encodePat, optionalLength_packHdr,
      sourceTag_packHdr, hdrSub_packHdr]
  | writerange start stop src pat =>
    simp only [opcodeOf, instrOf, encode, encodeHdr, encodeA, encodeB, encodePat, sourceTag_packHdr]
  | read => rfl
  | readfrom pos => rfl
  | readn pos len => rfl
  | rdu8 pos => simp only [opcodeOf, instrOf, encode, encodeHdr, encodeA, encodeB, encodePat, optionalPosition_packHdr]
  | rdu16 pos => simp only [opcodeOf, instrOf, encode, encodeHdr, encodeA, encodeB, encodePat, optionalPosition_packHdr]
  | rdu32 pos => simp only [opcodeOf, instrOf, encode, encodeHdr, encodeA, encodeB, encodePat, optionalPosition_packHdr]

/-- Settles O14: the encoded header finds the command's row, and the row reads the operands back. -/
theorem decodeOfEncodeIsTheCommand : Obligations.DecodeOfEncodeIsTheCommand :=
  fun _ i hwf => decode_eq_ok_iff.2 ⟨opcodeOf i, rowOf_encodeHdr hwf, instrOf_encode i⟩

theorem opcodeOf_instrOf (op : Opcode) (c : Command) : opcodeOf (instrOf op c) = op := by
  cases op <;> rfl

theorem sourceTag_toBits_ofBits (v : BitVec 2) : (SourceTag.ofBits v).toBits = v := by
  revert v
  decide

theorem endian_toBit_ofBit (e : Bool) : (Endian.ofBit e).toBit = e := by
  cases e <;> rfl

theorem isSome_optionalLength (c : Command) : (optionalLength c).isSome = hdrHl c.hdr := by
  unfold optionalLength
  cases hdrHl c.hdr <;> rfl

theorem isSome_optionalPosition (c : Command) : (optionalPosition c).isSome = hdrHp c.hdr := by
  unfold optionalPosition
  cases hdrHp c.hdr <;> rfl

/-- The operands read under a row encode to the row's `OP` and the fields it uses (R80). -/
theorem encodeHdr_instrOf (op : Opcode) (c : Command) :
    encodeHdr (instrOf op c) = usedFields (rowUse op) c.hdr := by
  cases op <;>
    simp [instrOf, encodeHdr, usedFields, rowUse, sourceTag_toBits_ofBits, endian_toBit_ofBit, isSome_optionalLength,
      isSome_optionalPosition]

/-- Settles O15: the header fits its row, so the fields the row uses are the whole header. -/
theorem encodeOfDecodeIsTheHeader : Obligations.EncodeOfDecodeIsTheHeader := by
  intro p c i hdecode
  obtain ⟨op, hrow, rfl⟩ := decode_eq_ok_iff.1 hdecode
  obtain ⟨hfits, htyped⟩ := (opcodeMapAgreesWithHeaderFields p c.hdr op).1 hrow
  refine ⟨?_, wf_iff.2 ?_⟩
  · rw [encodeHdr_instrOf, headerFits_iff_usedFields.1 hfits]
  · rwa [opcodeOf_instrOf]

/-! ### Operands and pattern bits without effect -/

/-- A command with the operands its row does not use replaced by 0 (R63): `B` counts only under `HL` and `A` only under `HP`
where the row has those fields (R61). -/
def usedOperands (u : RowUse) (c : Command) : Command :=
  { hdr := c.hdr
    a := if u.a = true ∧ (u.hp = true → hdrHp c.hdr = true) then c.a else 0
    b := if u.b = true ∧ (u.hl = true → hdrHl c.hdr = true) then c.b else 0
    pat := if u.pat = true then c.pat else ⟨0, 0⟩ }

/-- R63: an instruction is made of the header and the used operands. -/
theorem instrOf_usedOperands (op : Opcode) (c : Command) : instrOf op (usedOperands (rowUse op) c) = instrOf op c := by
  cases op <;> simp +contextual [instrOf, usedOperands, rowUse, optionalLength, optionalPosition]

/-- Settles O18: the two commands have one row and the same used operands. -/
theorem unusedOperandsAreIgnored : Obligations.UnusedOperandsAreIgnored := by
  intro p c c' op hhdr hrow ha hb hpat
  have hused : usedOperands (rowUse op) c = usedOperands (rowUse op) c' := by
    unfold usedOperands
    rw [← hhdr, ite_congr rfl ha fun _ => rfl, ite_congr rfl hb fun _ => rfl, ite_congr rfl hpat fun _ => rfl]
  unfold decode
  rw [← hhdr, hrow]
  show Except.ok (instrOf op c) = Except.ok (instrOf op c')
  rw [← instrOf_usedOperands, hused, instrOf_usedOperands]

section
variable {p q : Pattern} (hlen : q.plen = p.plen)
include hlen

theorem sourceBad_congr (src : SourceTag) : sourceBad src q = sourceBad src p := by
  unfold sourceBad
  rw [hlen]

theorem resolveLength_congr (len : Option Word) : resolveLength len q = resolveLength len p := by
  unfold resolveLength
  rw [hlen]

/-- R67: the symbols of a pattern are its bits below `PLEN`. -/
theorem symbolsOf_congr (hbits : ∀ k, k < p.plen.toNat → q.pdata.getLsbD k = p.pdata.getLsbD k) :
    symbolsOf q = symbolsOf p := by
  unfold symbolsOf
  rw [hlen]
  refine List.map_congr_left fun i hi => hbits _ ?_
  have hlt := List.mem_range.1 hi
  omega

end

section
variable {p q : Pattern} (hsymbols : symbolsOf q = symbolsOf p)
include hsymbols

/-- A window write takes the symbols of its pattern only (R132). -/
theorem writeWindow_congr (b sub L : Nat) (s : State) : writeWindow b sub L q s = writeWindow b sub L p s := by
  unfold writeWindow
  rw [hsymbols]

theorem boundedWrite_congr (b sub L : Nat) (s : State) : boundedWrite b sub L q s = boundedWrite b sub L p s := by
  unfold boundedWrite
  rw [writeWindow_congr hsymbols]

end

/-- Settles O19: the four commands take a pattern's `PLEN` and its symbols only. -/
theorem patternBitsAbovePlenAreIgnored : Obligations.PatternBitsAbovePlenAreIgnored := by
  intro s len src p q pos byte stop sub hlen hbits
  have hsource := sourceBad_congr hlen src
  have hlength := resolveLength_congr hlen len
  have hsymbols := symbolsOf_congr hlen hbits
  refine ⟨?write, ?writeatAbs, ?writeatPair, ?writerange⟩
  case write =>
    show execWrite len src q s = execWrite len src p s
    unfold execWrite
    simp only [hsource, hlength, writeWindow_congr hsymbols]
  case writeatAbs =>
    show execWriteatAbs pos len src q s = execWriteatAbs pos len src p s
    unfold execWriteatAbs
    rw [hsource, hlength, boundedWrite_congr hsymbols]
  case writeatPair =>
    show execWriteatPair byte sub len src q s = execWriteatPair byte sub len src p s
    unfold execWriteatPair
    rw [hsource, hlength, boundedWrite_congr hsymbols]
  case writerange =>
    show execWriterange pos stop src q s = execWriterange pos stop src p s
    unfold execWriterange
    rw [hsource, boundedWrite_congr hsymbols]

/-! ### Headers without a row, and words written out -/

/-- Settles O3: the step takes the command and rejects it. -/
theorem stepRejectsUndecodableCommand : Obligations.StepRejectsUndecodableCommand := by
  intro s c rest e hinputs hdecode
  simp only [step, takeInput, hinputs, hdecode]
  rfl

/-- Settles O13: each word evaluated. -/
theorem specWordsDecode : Obligations.SpecWordsDecode := by
  unfold Obligations.SpecWordsDecode
  decide

/-- R75: the rows that exist only under `HAS_TYPED` are those with an `OP` of 0x40 to 0x42. -/
theorem isTyped_iff {op : Opcode} :
    op.isTyped = true ↔ (rowUse op).op = 0x40 ∨ (rowUse op).op = 0x41 ∨ (rowUse op).op = 0x42 := by
  cases op <;> decide

/-- R220: without `HAS_TYPED` a typed read is an illegal command. -/
theorem typedRead_illegal {s : State} (htyped : s.params.hasTyped = false) (w : Nat) (pos : Option Word) :
    typedRead w pos s = .next (responded (faultResponse .illegalCommand) s) := by
  unfold typedRead
  rw [htyped]
  rfl

/-- Settles O49: a header that decodes fits its row, which its `OP` shows to be a typed read. -/
theorem typedReadsAbsentAreIllegal : Obligations.TypedReadsAbsentAreIllegal := by
  intro s c pos habsent
  have hillegal (w : Nat) := typedRead_illegal habsent w pos
  refine ⟨fun hop => ?_, hillegal 8, hillegal 16, hillegal 32⟩
  cases hdecode : decode s.params c with
  | error e => exact ⟨e, rfl⟩
  | ok i =>
    obtain ⟨op, hrow, -⟩ := decode_eq_ok_iff.1 hdecode
    obtain ⟨⟨hopByte, -⟩, hexists⟩ := (opcodeMapAgreesWithHeaderFields s.params c.hdr op).1 hrow
    have hpresent := hexists (isTyped_iff.2 (hopByte ▸ hop))
    rw [habsent] at hpresent
    cases hpresent

end Sys2Proof.Machine
end

section
/-! PROOFS. The pointer family (spec/40_pointer.md): mask, merge and extract (R106), the converter and its wiring (R100
to R103), the chunk arithmetic (R104, R105), and the pointer commands (R109 to R114). -/

namespace Sys2Proof.Machine

/-! ### Mask, merge and extract -/

section
variable {s n v : Nat}

/-- A field of n bits moved to its place in a byte still fits the byte. -/
theorem shiftLeft_lt_byte (hn : n ≤ 8 - s) (hv : v < 2 ^ n) : v <<< (8 - s - n) < 2 ^ 8 := by
  have hfit : v <<< (8 - s - n) < 2 ^ (n + (8 - s - n)) := Nat.shiftLeft_lt hv
  exact hfit.trans_le (Nat.pow_le_pow_right (by decide) (by omega))

/-- The number of a field moved to its place (R106). -/
theorem toNat_placed (hn : n ≤ 8 - s) (hv : v < 2 ^ n) :
    (BitVec.ofNat 8 (v <<< (8 - s - n))).toNat = v * 2 ^ (8 - s - n) := by
  rw [BitVec.toNat_ofNat, Nat.mod_eq_of_lt (shiftLeft_lt_byte hn hv), Nat.shiftLeft_eq]

/-- The mask as a number is the all-ones field in its place (R106). -/
theorem toNat_mask (hn : n ≤ 8 - s) : (mask s n).toNat = (2 ^ n - 1) * 2 ^ (8 - s - n) :=
  toNat_placed hn (Nat.sub_one_lt_of_lt (Nat.two_pow_pos n))

/-- A merge keeps the bits outside the mask (R106). -/
theorem merge_and_not_mask (old : Byte) (hn : n ≤ 8 - s) (hv : v < 2 ^ n) :
    merge old s n v &&& ~~~mask s n = old &&& ~~~mask s n := by
  apply BitVec.eq_of_getLsbD_eq
  intro k hk
  rw [BitVec.getLsbD_and, BitVec.getLsbD_and, BitVec.getLsbD_not, getLsbD_mask hn, getLsbD_merge old hn hv hk]
  by_cases hin : 8 - s - n ≤ k ∧ k < 8 - s
  · rw [decide_eq_true hin, Bool.not_true, Bool.and_false, Bool.and_false, Bool.and_false]
  · rw [if_neg hin]

/-- The value in its place touches no bit outside the mask: the two parts of a merge are disjoint. -/
theorem and_not_mask_and_placed (old : Byte) (hn : n ≤ 8 - s) (hv : v < 2 ^ n) :
    (old &&& ~~~mask s n) &&& BitVec.ofNat 8 (v <<< (8 - s - n)) = 0 := by
  have houtside : BitVec.ofNat 8 (v <<< (8 - s - n)) &&& ~~~mask s n = 0 := by
    have hmerge := merge_and_not_mask 0 hn hv
    unfold merge at hmerge
    simpa using hmerge
  rw [BitVec.and_assoc, BitVec.and_comm (~~~mask s n), houtside]
  exact BitVec.and_zero

/-- A merge as a number: the kept bits plus the value in its place (R106). -/
theorem toNat_merge (old : Byte) (hn : n ≤ 8 - s) (hv : v < 2 ^ n) :
    (merge old s n v).toNat = (old &&& ~~~mask s n).toNat + v * 2 ^ (8 - s - n) := by
  have hdisjoint := and_not_mask_and_placed old hn hv
  unfold merge
  rw [← BitVec.add_eq_or_of_and_eq_zero _ _ hdisjoint, BitVec.toNat_add_of_and_eq_zero hdisjoint, toNat_placed hn hv]

/-- An extract is the n bits of the byte from bit 8 - s - n on (R106). -/
theorem extract_eq (byte : Byte) (s n : Nat) : extract byte s n = byte.toNat / 2 ^ (8 - s - n) % 2 ^ n := by
  unfold extract
  rw [Nat.and_two_pow_sub_one_eq_mod, Nat.shiftRight_eq_div_pow]

/-- What is merged is extracted again (R106). -/
theorem extract_merge (old : Byte) (hs : s ≤ 7) (hn : n ≤ 8 - s) (hv : v < 2 ^ n) :
    extract (merge old s n v) s n = v := by
  apply Nat.eq_of_testBit_eq
  intro k
  rw [testBit_extract]
  by_cases hk : k < n
  · have hinside : 8 - s - n ≤ 8 - s - n + k ∧ 8 - s - n + k < 8 - s := by omega
    rw [getLsbD_merge old hn hv (by omega), if_pos hinside, Nat.add_sub_cancel_left, decide_eq_true hk, Bool.and_true]
  · rw [decide_eq_false hk, Bool.and_false,
      Nat.testBit_lt_two_pow (hv.trans_le (Nat.pow_le_pow_right (by decide) (Nat.not_lt.1 hk)))]

/-- Merging again changes nothing (R106): a merge uses only the bits of the old byte that the first one kept. -/
theorem merge_merge (old : Byte) (hn : n ≤ 8 - s) (hv : v < 2 ^ n) :
    merge (merge old s n v) s n v = merge old s n v :=
  congrArg (· ||| BitVec.ofNat 8 (v <<< (8 - s - n))) (merge_and_not_mask old hn hv)

end

/-- Settles O23: each clause is a law of its own. -/
theorem mergeAndExtractLaws : Obligations.MergeAndExtractLaws := by
  intro old s n v hs _ hn hv
  refine ⟨fun k _ => ?_, toNat_mask hn, toNat_merge old hn hv, extract_eq old s n, extract_merge old hs hn hv,
    merge_and_not_mask old hn hv, merge_merge old hn hv⟩
  rw [getLsbD_mask hn, decide_eq_true_iff]
  omega

/-! ### The converter and the chunk arithmetic -/

/-- R100 as wiring: a 32-bit offset is split into its bits 31:3 and 2:0. -/
theorem split_toNat (o : Word) : split o.toNat = ((o.extractLsb' 3 29).toNat, (o.extractLsb' 0 3).toNat) := by
  have ho := o.isLt
  rw [BitVec.extractLsb'_toNat, BitVec.extractLsb'_toNat, Nat.shiftRight_eq_div_pow, Nat.shiftRight_zero,
    Nat.mod_eq_of_lt (by omega)]
  rfl

/-- R101 as wiring: a 29-bit and a 3-bit index are joined by concatenation. -/
theorem join_toNat (b : ByteIndex) (s : SubIndex) : join b.toNat s.toNat = (b ++ s).toNat := by
  rw [BitVec.toNat_append, ← Nat.shiftLeft_add_eq_or_of_lt s.isLt, Nat.shiftLeft_eq, Nat.mul_comm]
  rfl

/-- Settles O20: over the naturals by division with remainder, as wiring bit field by bit field. -/
theorem converterSplitsAndJoins : Obligations.ConverterSplitsAndJoins := by
  refine ⟨fun o => ?split, fun o => ?splitWires, fun b s _ => rfl, join_toNat⟩
  case split =>
    unfold split
    omega
  case splitWires =>
    rw [split_toNat]
    exact ⟨rfl, rfl⟩

/-- Settles O21: division with remainder, both ways. -/
theorem converterIsOneToOne : Obligations.ConverterIsOneToOne :=
  ⟨join_div_mod, fun _ _ => split_of_join⟩

/-- Settles O22: the bounds of `chunk`, the two branches of `stepPair` and its law. -/
theorem chunkFitsAndStepAdvances : Obligations.ChunkFitsAndStepAdvances := by
  refine ⟨fun s rem hs hrem => ?chunk, fun b s n hs _ hn => ?step⟩
  case chunk => exact ⟨rfl, chunk_pos hs hrem, chunk_le_byte s rem, Nat.sub_le 8 s⟩
  case step => exact ⟨fun hend => if_pos (by omega), fun hinside => if_neg (by omega), stepPair_join hn hs⟩

/-! ### The pointer commands -/

section
variable (s : State)

/-- A cursor given by two registers' values is those registers (R11). -/
theorem setCursor_toNat (b : ByteIndex) (sub : SubIndex) :
    setCursor (b.toNat, sub.toNat) s = { s with curByte := b, curSub := sub } := by
  unfold setCursor
  rw [BitVec.ofNat_toNat, BitVec.ofNat_toNat, BitVec.setWidth_eq, BitVec.setWidth_eq]

/-- The cursor set to the split of a 32-bit offset stands at that offset (R100). -/
theorem setCursor_split_toNat (o : Word) : setCursor (split o.toNat) s = cursorAt o s := by
  rw [split_toNat, setCursor_toNat]
  rfl

/-- R21: the cursor placed at an offset reads as that offset. -/
theorem curOff_cursorAt (o : Word) : curOff (cursorAt o s) = o.toNat := by
  rw [← setCursor_split_toNat, curOff_setCursor_split o.isLt]

/-- GETOFF (R109). -/
theorem exec_getoff : exec .getoff s = .next (responded (okResponse (BitVec.ofNat 32 (curOff s))) s) := rfl

/-- SETABS (R110). -/
theorem exec_setabs (off : Word) : exec (.setabs off) s = .next (responded (okResponse 0) (cursorAt off s)) := by
  rw [← setCursor_split_toNat]
  rfl

/-- MVEND is SETABS `EXTENT` (R113). -/
theorem exec_mvend : exec .mvend s = exec (.setabs s.extent) s := rfl

/-- MVSTART is SETABS 0 (R112). -/
theorem exec_mvstart : exec .mvstart s = exec (.setabs 0) s := rfl

end

/-- Settles O24: the 32-bit value of the cursor's offset is the concatenation of its halves. -/
theorem getoffAnswersCursorOffset : Obligations.GetoffAnswersCursorOffset := by
  intro s
  rw [exec_getoff, ofNat_curOff_eq_append]
  rfl

/-- Settles O25: the cursor stands at the offset, and GETOFF reads it back. -/
theorem setabsPlacesCursor : Obligations.SetabsPlacesCursor := by
  intro s off
  have hoff : curOff (responded (okResponse 0) (cursorAt off s)) = off.toNat := curOff_cursorAt s off
  refine ⟨exec_setabs s off, ?_⟩
  rw [exec_getoff, hoff, BitVec.ofNat_toNat, BitVec.setWidth_eq]

/-- R65: the top three bits of a pair form's byte index are set exactly when it does not fit 29 bits. -/
theorem pairByteBad_iff {byte : Word} : pairByteBad byte = true ↔ 2 ^ 29 ≤ byte.toNat := by
  have hbyte := byte.isLt
  have hfield : (byte.extractLsb' 29 3).toNat = byte.toNat / 2 ^ 29 := by
    rw [BitVec.extractLsb'_toNat, Nat.shiftRight_eq_div_pow, Nat.mod_eq_of_lt (by omega)]
  unfold pairByteBad
  rw [bne_iff_ne, ne_eq, BitVec.toNat_eq, hfield]
  show ¬ byte.toNat / 2 ^ 29 = 0 ↔ 2 ^ 29 ≤ byte.toNat
  omega

/-- R103: the reduced sub-bit is the low three bits of the raw one. -/
theorem normsub_toNat (sub : Byte) : normsub sub.toNat = (sub.extractLsb' 0 3).toNat := by
  rw [BitVec.extractLsb'_toNat]
  rfl

/-- The pair of a byte index that fits and a sub-bit below 8 is the split of the offset it names (R111, R102). -/
theorem split_pair {byte : Word} {sub : Byte} (hbyte : byte.toNat < 2 ^ 29) (hsub : sub.toNat ≤ 7) :
    split (BitVec.ofNat 32 (8 * byte.toNat + sub.toNat)).toNat = (pairByte byte, normsub sub.toNat) := by
  have hpair : pairByte byte = byte.toNat := by
    unfold pairByte
    rw [BitVec.extractLsb'_toNat, Nat.shiftRight_zero, Nat.mod_eq_of_lt hbyte]
  rw [BitVec.toNat_ofNat, Nat.mod_eq_of_lt (by omega), hpair, normsub, Nat.mod_eq_of_lt (by omega)]
  exact split_of_join hsub

/-- SETPAIR with a byte index that fits sets the cursor to the pair (R111). -/
theorem exec_setpair {byte : Word} (hbyte : byte.toNat < 2 ^ 29) (sub : Byte) (s : State) :
    exec (.setpair byte sub) s = respond 0 (setCursor (pairByte byte, normsub sub.toNat) s) :=
  if_neg (mt pairByteBad_iff.1 (Nat.not_le.2 hbyte))

/-- Settles O26: the operand check decides between the fault and the cursor set to the pair. -/
theorem setpairDropsCarry : Obligations.SetpairDropsCarry := by
  intro s byte sub
  refine ⟨fun hbyte => ⟨?cursor, fun hsub => ?setabs⟩, fun hwide => ?fault⟩
  case cursor =>
    rw [exec_setpair hbyte, pairByte, normsub_toNat, setCursor_toNat]
    rfl
  case setabs =>
    rw [exec_setpair hbyte, ← split_pair hbyte hsub]
    rfl
  case fault => exact if_pos (pairByteBad_iff.2 hwide)

/-- Settles O27: both are a SETABS, whose offsets agree when `EXTENT` is 0. -/
theorem mvstartAndMvendAreShorthands : Obligations.MvstartAndMvendAreShorthands := by
  intro s
  refine ⟨rfl, exec_mvstart s, ?_, exec_mvend s, fun hempty => ?_⟩
  · rw [exec_mvend, exec_setabs]
  · rw [exec_mvend, exec_mvstart, hempty]

/-- ADVBYTE below the last byte index (R114). -/
theorem exec_advbyte {s : State} (hbyte : s.curByte.toNat < 2 ^ 29 - 1) :
    exec .advbyte s = respond 0 (setCursor (s.curByte.toNat + 1, 0) s) :=
  if_neg hbyte.ne

/-- Settles O28: the overflow check decides; below the last byte index the incremented index fits its register. -/
theorem advbyteMovesToNextByte : Obligations.AdvbyteMovesToNextByte := by
  intro s
  refine ⟨fun hbyte => ?next, fun hlast => if_pos hlast⟩
  have hfits : (s.curByte + 1).toNat = s.curByte.toNat + 1 :=
    BitVec.toNat_add_of_lt (Nat.add_lt_of_lt_sub hbyte)
  have hmoved := setCursor_toNat s (s.curByte + 1) 0
  rw [hfits] at hmoved
  rw [exec_advbyte hbyte]
  exact congrArg (respond 0) hmoved

end Sys2Proof.Machine
end

section
/-! PROOFS. The writer family (spec/41_writer.md): WRITE case by case (R143), a write repeated (R140), two writes as one
(R142), and a write read back (R141). -/

namespace Sys2Proof.Machine

/-! ### The cases of WRITE -/

/-- R131: the resolved length the statements name is the model's. -/
theorem resolvedLength_iff {len : Option Word} {pat : Pattern} {L : Nat} :
    ResolvedLength len pat L ↔ resolveLength len pat = L := by
  unfold ResolvedLength resolveLength
  cases len with
  | none => exact eq_comm
  | some b =>
    show (L : Int) = |b.toInt| ↔ b.toInt.natAbs = L
    rw [Int.abs_eq_natAbs]
    omega

/-- R135: the source check refuses exactly the sources that R66 and R67 rule out. -/
theorem sourceBad_iff {src : SourceTag} {pat : Pattern} : sourceBad src pat = true ↔ ¬ GoodSource src pat := by
  unfold sourceBad GoodSource
  cases src <;> simp

/-- The sub-bit half of the cursor is a sub-bit index (R34). -/
theorem curSub_le (s : State) : s.curSub.toNat ≤ 7 := Nat.le_of_lt_succ s.curSub.isLt

/-- R137 in every state, canonical or not: a window write ends at `split(start + L)`. -/
theorem writeWindow_pair {b sub : Nat} (L : Nat) (pat : Pattern) (s : State) (hsub : sub ≤ 7) :
    (writeWindow b sub L pat s).1 = split (join b sub + L) := by
  have hlen := length_rightAlign L (symbolsOf pat)
  show (writerCore L b sub (rightAlign L (symbolsOf pat)) s).1 = _
  rw [writerCore_pair s hsub hlen.le, hlen]

/-- The state a WRITE of `L` ≥ 1 bits leaves, its response apart (R143). -/
def written (L : Nat) (pat : Pattern) (s : State) : State :=
  setCursor (split (curOff s + L)) (writeWindow s.curByte.toNat s.curSub.toNat L pat s).2

section
variable {s : State} {len : Option Word} {src : SourceTag} {pat : Pattern} {L : Nat}

/-- A bad source faults, whatever the length (R143, R135). -/
theorem exec_write_badSource (hbad : ¬ GoodSource src pat) :
    exec (.write len src pat) s = .next (responded (faultResponse .typeMismatch) s) :=
  if_pos (sourceBad_iff.2 hbad)

section
variable (hgood : GoodSource src pat)
include hgood

/-- With a good source the resolved length decides (R143). -/
theorem exec_write_goodSource (hlen : ResolvedLength len pat L) :
    exec (.write len src pat) s =
      if L = 0 then respond 0 s
      else if capBits s.params < curOff s + L then raise .capacityExceeded s
      else respond 0 (written L pat s) := by
  have hsource : ¬ sourceBad src pat = true := fun hbad => sourceBad_iff.1 hbad hgood
  rw [← resolvedLength_iff.1 hlen]
  unfold written curOff
  rw [← writeWindow_pair _ _ _ (curSub_le s)]
  exact if_neg hsource

/-- Length 0 completes and changes nothing (R143). -/
theorem exec_write_zero (hlen : ResolvedLength len pat 0) :
    exec (.write len src pat) s = .next (responded (okResponse 0) s) :=
  (exec_write_goodSource hgood hlen).trans (if_pos rfl)

/-- A window that ends above `CAP_BITS` faults (R143, R136). -/
theorem exec_write_full (hlen : ResolvedLength len pat L) (hpos : 1 ≤ L) (hfull : capBits s.params < curOff s + L) :
    exec (.write len src pat) s = .next (responded (faultResponse .capacityExceeded) s) := by
  rw [exec_write_goodSource hgood hlen, if_neg (by omega), if_pos hfull]
  rfl

/-- A window inside storage is written (R143). -/
theorem exec_write_fits (hlen : ResolvedLength len pat L) (hpos : 1 ≤ L) (hfits : curOff s + L ≤ capBits s.params) :
    exec (.write len src pat) s = .next (responded (okResponse 0) (written L pat s)) := by
  rw [exec_write_goodSource hgood hlen, if_neg (by omega), if_neg (by omega)]
  rfl

end

section
variable (hwf : s.storage.wf = true) (hpos : 1 ≤ L) (hfits : curOff s + L ≤ capBits s.params)
include hwf hpos hfits

/-- A WRITE keeps the canonical form. -/
theorem written_wf (pat : Pattern) : (written L pat s).storage.wf = true := by
  obtain ⟨-, hcanonical, -⟩ := writeWindow_spec pat hwf (curSub_le s) hpos hfits
  exact hcanonical

/-- A WRITE in the words of the statements (R143). -/
theorem written_done (pat : Pattern) :
    WriteDone (curOff s) L pat (curOff s + L) s (responded (okResponse 0) (written L pat s)) where
  window := (writeWindow_written pat hwf (curSub_le s) hpos hfits).responded_setCursor _ _
  cursor := curOff_setCursor_split (hfits.trans_lt (capBits_lt s.params))
    (writeWindow s.curByte.toNat s.curSub.toNat L pat s).2
  responses := congrArg (· ++ [okResponse 0]) (writeWindow_responses _ _ _ _ _)

end

end

/-- Settles O30: the four cases of WRITE in their order. -/
theorem writeFollowsItsRule : Obligations.WriteFollowsItsRule := by
  intro s len src pat L hwf hlen
  refine ⟨exec_write_badSource, fun hgood hzero => ?zero, fun hgood hpos hfull => exec_write_full hgood hlen hpos hfull,
    fun hgood hpos hfits => ⟨_, exec_write_fits hgood hlen hpos hfits, written_done hwf hpos hfits pat⟩⟩
  case zero =>
    subst hzero
    exact exec_write_zero hgood hlen

/-! ### A write repeated -/

/-- The six pieces of the block and the three fields of the model's own are the whole state. -/
theorem SameBlock.eq {s t : State} (h : SameBlock s t) (hparams : t.params = s.params) (hinputs : t.inputs = s.inputs)
    (hresponses : t.responses = s.responses) : t = s := by
  obtain ⟨hbyte, hsub, hext, hlen, hendian, hstorage⟩ := h
  cases s
  cases t
  exact (State.mk.injEq ..).mpr ⟨hbyte, hsub, hext, hlen, hendian, hstorage, hparams, hinputs, hresponses⟩

/-- The symbols are already there and the two registers already reach the window's end, so writing the window again finds
nothing to change (R140). -/
theorem WindowWritten.writeWindow_again {b sub L : Nat} {pat : Pattern} {s t : State}
    (h : WindowWritten (join b sub) L pat s t) (hwf : t.storage.wf = true) (hsub : sub ≤ 7) (hpos : 1 ≤ L)
    (hfits : join b sub + L ≤ capBits s.params) : (writeWindow b sub L pat t).2 = t := by
  rw [← h.params] at hfits
  obtain ⟨-, hcanonical, hin, hout, hext, hlen, hbyte, hsubEq, hendian, hparams, hinputs, hresponses⟩ :=
    writeWindow_spec pat hwf hsub hpos hfits
  have hbits (o : Nat) : bitRead o (writeWindow b sub L pat t).2 = bitRead o t := by
    by_cases ho : join b sub ≤ o ∧ o < join b sub + L
    · obtain ⟨i, rfl⟩ := Nat.exists_eq_add_of_le ho.1
      have hi : i < L := by omega
      exact (hin i hi).trans (h.inWindow i hi).symm
    · exact hout o (by omega)
  have hextent := h.extent
  have hlenBytes := h.lenBytes
  refine SameBlock.eq ⟨hbyte, hsubEq, ?_, ?_, hendian, storage_eq_of_bits hcanonical hwf hbits⟩ hparams hinputs hresponses
  · exact BitVec.eq_of_toNat_eq (by omega)
  · exact BitVec.eq_of_toNat_eq (by omega)

/-- What a bounded write that fits leaves (R170). -/
theorem boundedWrite_fits {b sub L : Nat} {pat : Pattern} {s : State} (hpos : 1 ≤ L)
    (hfits : join b sub + L ≤ capBits s.params) :
    boundedWrite b sub L pat s =
      .next (responded (okResponse 0)
        (setCursor (split (writeWindow b sub L pat s).2.extent.toNat) (writeWindow b sub L pat s).2)) := by
  obtain ⟨-, hfull, -⟩ | ⟨hzero, -⟩ | ⟨-, -, heq⟩ := boundedWrite_cases b sub L pat s
  · omega
  · omega
  · exact heq

/-- A fault's response is not the one a command that completes adds. -/
theorem faulted_not_completed (f : FaultCode) (s : State) :
    (responded (faultResponse f) s).responses ≠ s.responses ++ [okResponse 0] := fun h =>
  faultResponse_ne_okResponse f 0 (List.singleton_inj.1 (List.append_cancel_left h))

/-- R140 for the end of a positioned write (R170): the cursor is at `EXTENT` already, too. -/
theorem boundedWrite_again {b sub L : Nat} {pat : Pattern} {s t : State} (hwf : s.storage.wf = true) (hsub : sub ≤ 7)
    (h : boundedWrite b sub L pat s = .next t) (hresp : t.responses = s.responses ++ [okResponse 0]) :
    boundedWrite b sub L pat t = .next (responded (okResponse 0) t) := by
  obtain ⟨-, -, heq⟩ | ⟨hzero, heq⟩ | ⟨hpos, hfits, heq⟩ := boundedWrite_cases b sub L pat s <;>
    rw [heq] at h <;> cases h
  · exact absurd hresp (faulted_not_completed _ s)
  · subst hzero
    rfl
  · obtain ⟨-, hcanonical, -, -, -, -, -, -, -, hparams, -⟩ := writeWindow_spec pat hwf hsub hpos hfits
    have hwindow := (writeWindow_written pat hwf hsub hpos hfits).responded_setCursor (okResponse 0)
      (split (writeWindow b sub L pat s).2.extent.toNat)
    have hagain := hwindow.writeWindow_again hcanonical hsub hpos hfits
    rw [boundedWrite_fits hpos (hparams.symm ▸ hfits), hagain]
    rfl

/-- A command that completes has passed its check. -/
theorem guard_passed {c : Prop} [Decidable c] {f : FaultCode} {r : Result} {s t : State}
    (h : (if c then raise f s else r) = .next t) (hresp : t.responses = s.responses ++ [okResponse 0]) :
    ¬ c ∧ r = .next t := by
  split at h
  · cases h
    exact absurd hresp (faulted_not_completed f s)
  · exact ⟨‹_›, h⟩

/-- A positioned write that completes in one state is the same bounded write in every state: its checks look at its operands
only (R171 to R173). -/
theorem exec_positionedWrite {i : Instr} {s t : State} (hi : isPositionedWrite i = true) (h : exec i s = .next t)
    (hresp : t.responses = s.responses ++ [okResponse 0]) :
    ∃ b sub L pat, sub ≤ 7 ∧ ∀ u, exec i u = boundedWrite b sub L pat u := by
  cases i with
  | writeatAbs pos len src pat =>
    obtain ⟨hsource, -⟩ := guard_passed h hresp
    exact ⟨_, _, _, pat, by omega, fun u => if_neg hsource⟩
  | writeatPair byte sub len src pat =>
    obtain ⟨hsource, h⟩ := guard_passed h hresp
    obtain ⟨hbyte, -⟩ := guard_passed h hresp
    exact ⟨_, _, _, pat, normsub_le sub.toNat, fun u => (if_neg hsource).trans (if_neg hbyte)⟩
  | writerange start stop src pat =>
    obtain ⟨hsource, -⟩ := guard_passed h hresp
    exact ⟨_, _, _, pat, by omega, fun u => if_neg hsource⟩
  | _ => cases hi

/-- Settles O38: the window once written stays as it is when written again, and a positioned write is a bounded write of
one window in both states. -/
theorem repeatedWriteChangesNothing : Obligations.RepeatedWriteChangesNothing := by
  refine ⟨fun b sub L pat s hwf hsub hpos hfits => ?core, fun i s t hi hwf hexec hresp => ?positioned⟩
  case core =>
    obtain ⟨-, hcanonical, -⟩ := writeWindow_spec pat hwf hsub hpos hfits
    exact (writeWindow_written pat hwf hsub hpos hfits).writeWindow_again hcanonical hsub hpos hfits
  case positioned =>
    obtain ⟨b, sub, L, pat, hsub, hbounded⟩ := exec_positionedWrite hi hexec hresp
    rw [hbounded] at hexec ⊢
    exact boundedWrite_again hwf hsub hexec hresp

/-! ### Two writes in a row -/

/-- What a WRITE without a length leaves of the block (R143): the bit-string `S` from the cursor on, the cursor behind it, and
the two registers raised where `S` has a symbol. -/
structure Appended (S : BitString) (s t : State) : Prop where
  canonical : t.storage.wf = true
  bits : ∀ o, bitRead o t = if curOff s ≤ o ∧ o < curOff s + S.length then S.getD (o - curOff s) false else bitRead o s
  cursor : curOff t = curOff s + S.length
  extent : t.extent.toNat = if S.length = 0 then s.extent.toNat else max s.extent.toNat (curOff s + S.length)
  lenBytes : t.lenBytes.toNat =
    if S.length = 0 then s.lenBytes.toNat else max s.lenBytes.toNat (ceil8 (curOff s + S.length))
  endian : t.endian = s.endian
  params : t.params = s.params

/-- Without a length each symbol of the pattern is written as it is (R131, R132). -/
theorem getD_symbolsOf {pat : Pattern} {i : Nat} (hi : i < pat.plen.toNat) :
    (symbolsOf pat).getD i false = writtenSymbol pat pat.plen.toNat i := by
  have hin : pat.plen.toNat - 1 - i < pat.plen.toNat := by omega
  rw [List.getD_eq_getElem _ _ ((length_symbolsOf pat).symm ▸ hi), getElem_symbolsOf, writtenSymbol, decide_eq_true hin,
    Bool.true_and]

/-- Appending the empty bit-string changes nothing of the block. -/
theorem Appended.nil {s : State} (hwf : s.storage.wf = true) (r : Response) : Appended [] s (responded r s) where
  canonical := hwf
  bits o := by
    rw [List.length_nil, if_neg (by omega)]
    rfl
  cursor := rfl
  extent := rfl
  lenBytes := rfl
  endian := rfl
  params := rfl

/-- A WRITE of the whole of a pattern that is not empty has appended its symbols. -/
theorem WriteDone.appended {s t : State} {pat : Pattern}
    (h : WriteDone (curOff s) pat.plen.toNat pat (curOff s + pat.plen.toNat) s t) (hwf : t.storage.wf = true)
    (hpos : 1 ≤ pat.plen.toNat) : Appended (symbolsOf pat) s t := by
  have hlength := length_symbolsOf pat
  obtain ⟨hwindow, hcursor, -⟩ := h
  refine ⟨hwf, fun o => ?bits, ?cursor, ?extent, ?lenBytes, hwindow.endian, hwindow.params⟩
  case bits =>
    split
    · rename_i hin
      obtain ⟨i, rfl⟩ := Nat.exists_eq_add_of_le hin.1
      have hi : i < pat.plen.toNat := by omega
      rw [hwindow.inWindow i hi, Nat.add_sub_cancel_left, getD_symbolsOf hi]
    · exact hwindow.outside o (by omega)
  case cursor => rw [hcursor, hlength]
  case extent => rw [hwindow.extent, hlength, if_neg (by omega)]
  case lenBytes => rw [hwindow.lenBytes, hlength, if_neg (by omega)]

/-- WRITE without a length, with room for the pattern, the empty pattern included. -/
theorem exec_write_appended {s : State} {src : SourceTag} {pat : Pattern} (hwf : s.storage.wf = true)
    (hgood : GoodSource src pat) (hfits : curOff s + pat.plen.toNat ≤ capBits s.params) :
    ∃ t, exec (.write none src pat) s = .next t ∧ Appended (symbolsOf pat) s t := by
  obtain hzero | hpos := Nat.eq_zero_or_pos pat.plen.toNat
  · have hnil : symbolsOf pat = [] := List.eq_nil_of_length_eq_zero ((length_symbolsOf pat).trans hzero)
    exact ⟨_, exec_write_zero hgood hzero.symm, hnil ▸ .nil hwf _⟩
  · exact ⟨_, exec_write_fits hgood rfl hpos hfits,
      (written_done hwf hpos hfits pat).appended (written_wf hwf hpos hfits pat) hpos⟩

/-- One string appended after another is their concatenation appended (R142). -/
theorem Appended.trans {S₁ S₂ : BitString} {s t u : State} (h₁ : Appended S₁ s t) (h₂ : Appended S₂ t u) :
    Appended (S₁ ++ S₂) s u := by
  have hlength : (S₁ ++ S₂).length = S₁.length + S₂.length := List.length_append
  obtain ⟨-, hbits₁, hcursor₁, hextent₁, hlen₁, hendian₁, hparams₁⟩ := h₁
  obtain ⟨hwf, hbits₂, hcursor₂, hextent₂, hlen₂, hendian₂, hparams₂⟩ := h₂
  refine ⟨hwf, fun o => ?bits, ?cursor, ?extent, ?lenBytes, hendian₂.trans hendian₁, hparams₂.trans hparams₁⟩
  case bits =>
    rw [hbits₂, hbits₁, hcursor₁, hlength]
    by_cases hsecond : curOff s + S₁.length ≤ o ∧ o < curOff s + S₁.length + S₂.length
    · rw [if_pos hsecond, if_pos (by omega), List.getD_append_right _ _ _ _ (by omega)]
      congr 1
      omega
    · rw [if_neg hsecond]
      by_cases hfirst : curOff s ≤ o ∧ o < curOff s + S₁.length
      · rw [if_pos hfirst, if_pos (by omega), List.getD_append _ _ _ _ (by omega)]
      · rw [if_neg hfirst, if_neg (by omega)]
  case cursor => omega
  case extent =>
    rw [hextent₂, hextent₁, hcursor₁, hlength]
    split_ifs <;> omega
  case lenBytes =>
    rw [hlen₂, hlen₁, hcursor₁, hlength]
    unfold ceil8
    split_ifs <;> omega

/-- The cursor's offset determines its two halves (R102). -/
theorem cursor_eq_of_curOff_eq {s t : State} (h : curOff t = curOff s) : t.curByte = s.curByte ∧ t.curSub = s.curSub := by
  have hpair := (split_of_join (curSub_le t)).symm.trans ((congrArg split h).trans (split_of_join (curSub_le s)))
  exact ⟨BitVec.eq_of_toNat_eq (congrArg Prod.fst hpair), BitVec.eq_of_toNat_eq (congrArg Prod.snd hpair)⟩

/-- Appending leaves one block only. -/
theorem Appended.sameBlock {S : BitString} {s t u : State} (ht : Appended S s t) (hu : Appended S s u) :
    SameBlock t u := by
  obtain ⟨hbyte, hsub⟩ := cursor_eq_of_curOff_eq (hu.cursor.trans ht.cursor.symm)
  exact ⟨hbyte, hsub, BitVec.eq_of_toNat_eq (hu.extent.trans ht.extent.symm),
    BitVec.eq_of_toNat_eq (hu.lenBytes.trans ht.lenBytes.symm), hu.endian.trans ht.endian.symm,
    storage_eq_of_bits hu.canonical ht.canonical fun o => (hu.bits o).trans (ht.bits o).symm⟩

/-- Settles O39: both ways append the concatenation. -/
theorem twoWritesEqualTheirConcatenation : Obligations.TwoWritesEqualTheirConcatenation := by
  intro s p1 p2 p src hwf hgood1 hgood2 hgood hsymbols (hfits : curOff s + p.plen.toNat ≤ capBits s.params)
  have hlengths : p.plen.toNat = p1.plen.toNat + p2.plen.toNat := by simpa using congrArg List.length hsymbols
  obtain ⟨t1, hexec1, happ1⟩ := exec_write_appended hwf hgood1 (by omega)
  have hcursor := happ1.cursor
  rw [length_symbolsOf] at hcursor
  obtain ⟨t2, hexec2, happ2⟩ := exec_write_appended happ1.canonical hgood2 (happ1.params.symm ▸ (by omega))
  obtain ⟨t, hexec, happ⟩ := exec_write_appended hwf hgood hfits
  exact ⟨t1, t2, t, hexec1, hexec2, hexec, happ.sameBlock (hsymbols ▸ happ1.trans happ2)⟩

/-! ### A write read back -/

/-- A length that is not negative is its own unsigned value (R68). -/
theorem toNat_toInt_of_nonneg {len : Word} (h : 0 ≤ len.toInt) : len.toInt.toNat = len.toNat := by
  rw [BitVec.toInt_eq_toNat_of_lt (BitVec.toInt_pos_iff.1 h), Int.toNat_natCast]

/-- READN with a length that is not negative, where every readable bit exists (R156). -/
theorem exec_readn_answered {pos len : Word} {s : State} (hext : s.extent.toNat ≤ capBits s.params)
    (hlen : 0 ≤ len.toInt) :
    ∃ r, exec (.readn pos len) s = .next (responded r (cursorAt pos s)) ∧
      RangeAnswered pos.toNat (min (pos.toNat + len.toNat) s.extent.toNat - pos.toNat) s r := by
  obtain ⟨r, hanswer, hrange⟩ := answerRange_ok (pos := pos.toNat) (req := pos.toNat + len.toNat) hext (cursorAt pos s)
  refine ⟨r, ?_, hrange⟩
  rw [← setCursor_split_toNat, ← toNat_toInt_of_nonneg hlen] at hanswer
  rw [← setCursor_split_toNat]
  exact (if_neg (by omega)).trans hanswer

/-- The range of a written window is its symbols. -/
theorem WindowWritten.isRange {start L : Nat} {pat : Pattern} {s t : State} (h : WindowWritten start L pat s t) :
    IsRange start L t ((List.range L).map (writtenSymbol pat L)) :=
  (List.map_congr_left fun i hi => h.inWindow i (List.mem_range.1 hi)).symm

/-- Settles O40: the write raises `EXTENT` to the window's end, so READN answers the whole window. -/
theorem writeThenReadGivesTheWrittenBits : Obligations.WriteThenReadGivesTheWrittenBits := by
  intro s len src pat L hinv hgood hlen hpos hsigned (hfits : curOff s + L ≤ capBits s.params)
  have hexec := exec_write_fits hgood hlen hpos hfits
  have hwindow := (written_done hinv.canonical hpos hfits pat).window
  have hext := ((exec_effect hexec).inv hinv).extent_le_cap
  have hextent := hwindow.extent
  have hposNat : (BitVec.ofNat 32 (curOff s)).toNat = curOff s := by
    rw [BitVec.toNat_ofNat, Nat.mod_eq_of_lt (curOff_lt s)]
  have hlenNat : (BitVec.ofNat 32 L).toNat = L := by
    rw [BitVec.toNat_ofNat, Nat.mod_eq_of_lt (by omega)]
  have hlenInt : 0 ≤ (BitVec.ofNat 32 L).toInt := BitVec.toInt_pos_iff.2 (by omega)
  obtain ⟨r, hread, hrange⟩ := exec_readn_answered (pos := BitVec.ofNat 32 (curOff s)) hext hlenInt
  rw [hposNat, hlenNat, hextent, show min (curOff s + L) _ - curOff s = L by omega] at hrange
  exact ⟨_, _, r, hexec, hread, rfl, hrange.status, hrange.bits.trans hwindow.isRange.symm⟩

end Sys2Proof.Machine
end

section
/-! PROOFS. The reader family (spec/42_reader.md): READ, READFROM and READN with their answers (R154 to R156), how they agree
(R157), and what no pointer command and no read touches. -/

namespace Sys2Proof.Machine

/-! ### The frame of pointer commands and reads -/

/-- Settles O12: only a write and INIT have an effect beyond the cursor and the response port. -/
theorem pointerAndReadCommandsKeepStorage : Obligations.PointerAndReadCommandsKeepStorage := by
  intro i s t hinit hnoWrite hexec
  cases exec_effect hexec with
  | faulted _ => exact ⟨rfl, rfl, rfl, rfl, rfl, rfl⟩
  | moved _ _ _ => exact ⟨rfl, rfl, rfl, rfl, rfl, rfl⟩
  | written _ _ _ _ _ htarget =>
    rw [hnoWrite] at htarget
    cases htarget
  | constructed _ _ hi _ =>
    subst hi
    cases hinit

/-! ### The answer to a read -/

/-- The response to a read of [pos, req): the reader core's chunks in beats (R70, R72). -/
def rangeResponse (pos req : Nat) (s : State) : Response :=
  ⟨0, BitVec.ofNat 32 (readerCore pos req s).flatten.length, beatsOf (readerCore pos req s)⟩

/-- The first `k` symbols of a range are the range of its first `k` bits. -/
theorem IsRange.take {pos n : Nat} {s : State} {R : BitString} (h : IsRange pos n s R) (k : Nat) :
    IsRange pos (min k n) s (R.take k) := by
  unfold IsRange at h ⊢
  rw [h, ← List.map_take, List.take_range]

section
variable {s : State} (hext : s.extent.toNat ≤ capBits s.params)
include hext

/-- Where every readable bit exists, a read completes with this response, wherever it leaves the cursor. -/
theorem answerRange_eq (pos req : Nat) (s' : State) :
    answerRange pos req s s' = .next (responded (rangeResponse pos req s) s') := by
  unfold answerRange
  rw [readRange_ok hext]
  rfl

/-- That response is the range clipped to `EXTENT` (R152, R153). -/
theorem rangeResponse_answered (pos req : Nat) :
    RangeAnswered pos (min req s.extent.toNat - pos) s (rangeResponse pos req s) := by
  obtain ⟨r, hanswer, hrange⟩ := answerRange_ok (pos := pos) (req := req) hext s
  rw [answerRange_eq hext] at hanswer
  have hr : rangeResponse pos req s = r := by simpa [responded] using hanswer
  exact hr ▸ hrange

/-- The same up to `EXTENT`, where READ and READFROM end. -/
theorem rangeResponse_extent_answered (pos : Nat) :
    RangeAnswered pos (s.extent.toNat - pos) s (rangeResponse pos s.extent.toNat s) := by
  have hrange := rangeResponse_answered hext pos s.extent.toNat
  rwa [Nat.min_self] at hrange

/-- READ (R154). -/
theorem exec_read : exec .read s = .next (responded (rangeResponse (curOff s) s.extent.toNat s) s) :=
  answerRange_eq hext _ _ s

/-- READFROM (R155). -/
theorem exec_readfrom (pos : Word) :
    exec (.readfrom pos) s = .next (responded (rangeResponse pos.toNat s.extent.toNat s) (cursorAt pos s)) := by
  rw [← setCursor_split_toNat]
  exact answerRange_eq hext _ _ _

/-- READ after SETABS gives the response of READFROM: the reader core looks at storage and `EXTENT` only (R157). -/
theorem exec_read_after_setabs (pos : Word) (r : Response) :
    exec .read (responded r (cursorAt pos s)) =
      .next (responded (rangeResponse pos.toNat s.extent.toNat s) (responded r (cursorAt pos s))) := by
  have hcursor : curOff (responded r (cursorAt pos s)) = pos.toNat := curOff_cursorAt s pos
  have hread := exec_read (s := responded r (cursorAt pos s)) hext
  rwa [hcursor] at hread

end

/-- READN with a negative length (R156, R221). -/
theorem exec_readn_negative {pos len : Word} (s : State) (hneg : len.toInt < 0) :
    exec (.readn pos len) s = .next (responded (faultResponse .illegalOperand) s) :=
  if_pos hneg

/-! ### The three commands -/

/-- Settles O42: the range from the cursor to `EXTENT`, delivered in the state the command found. -/
theorem readAnswersFromCursor : Obligations.ReadAnswersFromCursor :=
  fun _ hext => ⟨_, exec_read hext, rangeResponse_extent_answered hext _⟩

/-- Settles O43: the range from the position to `EXTENT`, delivered with the cursor at the position. -/
theorem readfromAnswersFromPosition : Obligations.ReadfromAnswersFromPosition :=
  fun _ pos hext => ⟨_, exec_readfrom hext pos, rangeResponse_extent_answered hext _⟩

/-- Settles O44: the sign of the length decides between the fault and the clipped range. -/
theorem readnAnswersClippedRange : Obligations.ReadnAnswersClippedRange :=
  fun s _ _ hext => ⟨exec_readn_negative s, exec_readn_answered hext⟩

/-- Settles O45: the response depends on the position and not on the cursor, and READN's range is the first part of
READFROM's. -/
theorem readCommandsAgree : Obligations.ReadCommandsAgree := by
  intro s pos len hext hlen
  obtain ⟨q, hreadn, hq⟩ := exec_readn_answered (pos := pos) hext hlen
  have hfirst := (rangeResponse_extent_answered hext pos.toNat).bits.take len.toNat
  have hclip : min (pos.toNat + len.toNat) s.extent.toNat - pos.toNat = min len.toNat (s.extent.toNat - pos.toNat) := by
    omega
  rw [hclip] at hq
  exact ⟨_, _, _, _, q, exec_setabs s pos, exec_read_after_setabs hext pos _, exec_readfrom hext pos, rfl,
    ⟨rfl, rfl, rfl, rfl, rfl, rfl⟩, hreadn, rfl, hq.bits.trans hfirst.symm⟩

end Sys2Proof.Machine
end

section
/-! PROOFS. The bounded-write family (spec/43_bounded_write.md): the shared end of the positioned writes case by case
(R170), the three commands (R171 to R173), where they leave the cursor (R174), and a patch inside the data (R175). -/

namespace Sys2Proof.Machine

/-! ### The cases of a bounded write -/

section
variable {b sub L : Nat} {pat : Pattern} {s : State}

/-- Length 0: only the cursor moves, to `split(EXTENT)` (R170). -/
theorem boundedWrite_zero : boundedWrite b sub 0 pat s = .next (responded (okResponse 0) (cursorAt s.extent s)) := by
  rw [← setCursor_split_toNat]
  rfl

/-- A window that ends above `CAP_BITS` faults (R170, R136). -/
theorem boundedWrite_full (hpos : 1 ≤ L) (hfull : capBits s.params < join b sub + L) :
    boundedWrite b sub L pat s = .next (responded (faultResponse .capacityExceeded) s) :=
  if_pos ⟨hpos, hfull⟩

/-- A window inside storage is written and the cursor ends at the new `EXTENT` (R170, R138). -/
theorem boundedWrite_done (hwf : s.storage.wf = true) (hsub : sub ≤ 7) (hpos : 1 ≤ L)
    (hfits : join b sub + L ≤ capBits s.params) :
    ∃ t, boundedWrite b sub L pat s = .next t ∧
      WriteDone (join b sub) L pat (max s.extent.toNat (join b sub + L)) s t := by
  refine ⟨_, boundedWrite_fits hpos hfits, (writeWindow_written pat hwf hsub hpos hfits).responded_setCursor _ _, ?_,
    congrArg (· ++ [okResponse 0]) (writeWindow_responses b sub L pat s)⟩
  rw [← writeWindow_extent pat hfits]
  exact curOff_setCursor_split (BitVec.isLt _) (writeWindow b sub L pat s).2

/-- A bounded write that completes leaves the cursor at `EXTENT` (R174). -/
theorem boundedWrite_cursor {t : State} (h : boundedWrite b sub L pat s = .next t)
    (hresp : t.responses = s.responses ++ [okResponse 0]) : curOff t = t.extent.toNat := by
  obtain ⟨-, -, heq⟩ | ⟨-, heq⟩ | ⟨-, -, heq⟩ := boundedWrite_cases b sub L pat s <;> rw [heq] at h <;> cases h
  · exact absurd hresp (faulted_not_completed _ s)
  · exact curOff_setCursor_split s.extent.isLt s
  · exact curOff_setCursor_split (BitVec.isLt _) (writeWindow b sub L pat s).2

/-- The window write passes the cursor through. -/
theorem writeWindow_setCursor (cursor : Nat × Nat) :
    writeWindow b sub L pat (setCursor cursor s) =
      ((writeWindow b sub L pat s).1, setCursor cursor (writeWindow b sub L pat s).2) := by
  unfold writeWindow
  rw [writerCore_comm (f := setCursor cursor) (fun _ _ => rfl) (fun _ _ _ => rfl)]
  rfl

/-- A bounded write that completes sets the cursor anew, so it answers the same from any other cursor (R170). -/
theorem boundedWrite_setCursor {t : State} (h : boundedWrite b sub L pat s = .next t)
    (hresp : t.responses = s.responses ++ [okResponse 0]) (cursor : Nat × Nat) :
    boundedWrite b sub L pat (setCursor cursor s) = .next t := by
  obtain ⟨-, -, heq⟩ | ⟨hzero, heq⟩ | ⟨hpos, hfits, heq⟩ := boundedWrite_cases b sub L pat s <;>
    rw [heq] at h <;> cases h
  · exact absurd hresp (faulted_not_completed _ s)
  · subst hzero
    rfl
  · rw [boundedWrite_fits (s := setCursor cursor s) hpos hfits, writeWindow_setCursor]
    rfl

end

/-! ### The three commands -/

section
variable {len : Option Word} {src : SourceTag} {pat : Pattern} {L : Nat}

/-- A good source passes the source check (R135). -/
theorem not_sourceBad (hgood : GoodSource src pat) : ¬ sourceBad src pat = true :=
  fun hbad => sourceBad_iff.1 hbad hgood

/-- With a good source, WRITEAT.ABS is the bounded write at the split of its position (R171). -/
theorem exec_writeatAbs (hgood : GoodSource src pat) (hlen : ResolvedLength len pat L) (pos : Word) (s : State) :
    exec (.writeatAbs pos len src pat) s = boundedWrite (pos.toNat / 8) (pos.toNat % 8) L pat s := by
  rw [← resolvedLength_iff.1 hlen]
  exact if_neg (not_sourceBad hgood)

/-- With a good source, the operand check of WRITEAT.PAIR comes next (R172, R65). -/
theorem exec_writeatPair_wide {byte : Word} (hgood : GoodSource src pat) (hwide : 2 ^ 29 ≤ byte.toNat) (sub : Byte)
    (s : State) :
    exec (.writeatPair byte sub len src pat) s = .next (responded (faultResponse .illegalOperand) s) :=
  (if_neg (not_sourceBad hgood)).trans (if_pos (pairByteBad_iff.2 hwide))

/-- A byte index that fits is read as it is (R65). -/
theorem pairByte_eq {byte : Word} (hbyte : byte.toNat < 2 ^ 29) : pairByte byte = byte.toNat := by
  unfold pairByte
  rw [BitVec.extractLsb'_toNat, Nat.shiftRight_zero, Nat.mod_eq_of_lt hbyte]

/-- With a good source and a byte index that fits, WRITEAT.PAIR is the bounded write at the pair (R172, R103). -/
theorem exec_writeatPair {byte : Word} (hgood : GoodSource src pat) (hlen : ResolvedLength len pat L)
    (hbyte : byte.toNat < 2 ^ 29) (sub : Byte) (s : State) :
    exec (.writeatPair byte sub len src pat) s = boundedWrite byte.toNat (normsub sub.toNat) L pat s := by
  rw [← resolvedLength_iff.1 hlen, ← pairByte_eq hbyte]
  have hoperand : ¬ pairByteBad byte = true := mt pairByteBad_iff.1 (Nat.not_le.2 hbyte)
  exact (if_neg (not_sourceBad hgood)).trans (if_neg hoperand)

/-- With a good source, WRITERANGE is the bounded write of the range's length, 0 where it is degenerate (R173). -/
theorem exec_writerange (hgood : GoodSource src pat) (start stop : Word) (s : State) :
    exec (.writerange start stop src pat) s =
      boundedWrite (start.toNat / 8) (start.toNat % 8) (stop.toNat - start.toNat) pat s := by
  have hlength : (if start.toNat < stop.toNat then stop.toNat - start.toNat else 0) = stop.toNat - start.toNat := by
    split <;> omega
  rw [← hlength]
  exact if_neg (not_sourceBad hgood)

/-- WRITEAT.ABS of at least one bit inside storage completes, its window written (R171). -/
theorem exec_writeatAbs_done {pos : Word} {s : State} (hwf : s.storage.wf = true)
    (hgood : GoodSource src pat) (hlen : ResolvedLength len pat L) (hpos : 1 ≤ L)
    (hfits : pos.toNat + L ≤ capBits s.params) :
    ∃ t, exec (.writeatAbs pos len src pat) s = .next t ∧
      WriteDone pos.toNat L pat (max s.extent.toNat (pos.toNat + L)) s t := by
  have hjoin := join_div_mod pos.toNat
  have hdone := boundedWrite_done (pat := pat) hwf (sub := pos.toNat % 8) (by omega) hpos (hjoin.symm ▸ hfits)
  rwa [hjoin, ← exec_writeatAbs hgood hlen] at hdone

end

/-- Settles O31: after the source check the cases of a bounded write at the position; the same bounded write again finds
nothing to change. -/
theorem writeatAbsFollowsItsRule : Obligations.WriteatAbsFollowsItsRule := by
  intro s pos len src pat L hwf hlen
  have hjoin := join_div_mod pos.toNat
  refine ⟨fun hbad => if_pos (sourceBad_iff.2 hbad), fun hgood hzero => ?zero, fun hgood hpos hfull => ?full,
    fun hgood hpos hfits => ?fits⟩
  case zero =>
    subst hzero
    exact (exec_writeatAbs hgood hlen pos s).trans boundedWrite_zero
  case full =>
    exact (exec_writeatAbs hgood hlen pos s).trans (boundedWrite_full hpos (hjoin.symm ▸ hfull))
  case fits =>
    obtain ⟨t, hexec, hdone⟩ := exec_writeatAbs_done hwf hgood hlen hpos hfits
    have hbounded := (exec_writeatAbs hgood hlen pos s).symm.trans hexec
    have hagain := boundedWrite_again hwf (by omega) hbounded hdone.responses
    exact ⟨t, hexec, hdone, (exec_writeatAbs hgood hlen pos t).trans hagain⟩

/-- Settles O32: after the two checks the cases of a bounded write at the pair, whose join is the start. -/
theorem writeatPairFollowsItsRule : Obligations.WriteatPairFollowsItsRule := by
  intro s byte sub len src pat L start hwf hlen hstart
  have hjoin : join byte.toNat (normsub sub.toNat) = start := hstart.symm
  refine ⟨fun hbad => if_pos (sourceBad_iff.2 hbad), fun hgood hwide => exec_writeatPair_wide hgood hwide sub s,
    fun hgood hbyte hzero => ?zero, fun hgood hbyte hpos hfull => ?full, fun hgood hbyte hpos hfits => ?fits⟩
  case zero =>
    subst hzero
    exact (exec_writeatPair hgood hlen hbyte sub s).trans boundedWrite_zero
  case full =>
    exact (exec_writeatPair hgood hlen hbyte sub s).trans (boundedWrite_full hpos (hjoin.symm ▸ hfull))
  case fits =>
    have hdone := boundedWrite_done (pat := pat) hwf (normsub_le sub.toNat) hpos (hjoin.symm ▸ hfits)
    rwa [hjoin, ← exec_writeatPair hgood hlen hbyte] at hdone

/-- Settles O33: after the source check the cases of a bounded write of the range's length. -/
theorem writerangeFollowsItsRule : Obligations.WriterangeFollowsItsRule := by
  intro s start stop src pat hwf
  have hjoin := join_div_mod start.toNat
  have hend (hlt : start.toNat < stop.toNat) :
      join (start.toNat / 8) (start.toNat % 8) + (stop.toNat - start.toNat) = stop.toNat := by
    rw [hjoin, Nat.add_sub_cancel' hlt.le]
  refine ⟨fun hbad => if_pos (sourceBad_iff.2 hbad), fun hgood hempty => ?degenerate, fun hgood hlt hfull => ?full,
    fun hgood hlt hfits => ?fits⟩
  case degenerate =>
    rw [exec_writerange hgood, Nat.sub_eq_zero_of_le hempty]
    exact boundedWrite_zero
  case full =>
    exact (exec_writerange hgood start stop s).trans
      (boundedWrite_full (Nat.sub_pos_of_lt hlt) (hfull.trans_eq (hend hlt).symm))
  case fits =>
    have hdone := boundedWrite_done (pat := pat) hwf (sub := start.toNat % 8) (by omega) (Nat.sub_pos_of_lt hlt)
      ((hend hlt).trans_le hfits)
    rwa [hend hlt, hjoin, ← exec_writerange hgood] at hdone

/-! ### The cursor, and a patch inside the data -/

/-- Settles O35: a positioned write that completes is a bounded write, which ends with the cursor at `EXTENT`. -/
theorem positionedWritesLeaveCursorAtExtent : Obligations.PositionedWritesLeaveCursorAtExtent := by
  intro i s t hi hexec hresp
  obtain ⟨b, sub, L, pat, -, hbounded⟩ := exec_positionedWrite hi hexec hresp
  rw [hbounded] at hexec
  exact boundedWrite_cursor hexec hresp

/-- Settles O36: a positioned write that completes is the same bounded write from every cursor. -/
theorem positionedWritesIgnoreOldCursor : Obligations.PositionedWritesIgnoreOldCursor := by
  intro i s t b c hi hexec hresp
  obtain ⟨_, _, _, _, -, hbounded⟩ := exec_positionedWrite hi hexec hresp
  rw [hbounded] at hexec ⊢
  rw [← setCursor_toNat]
  exact boundedWrite_setCursor hexec hresp _

/-- Settles O37: the window ends at or below `EXTENT`, so neither register rises and the cursor ends where it was. -/
theorem patchKeepsAppendPosition : Obligations.PatchKeepsAppendPosition := by
  intro s pos len src pat L hinv hgood hlen hcursor hinside
  obtain rfl | hpos := Nat.eq_zero_or_pos L
  case inl =>
    obtain ⟨hbyte, hsub⟩ := cursor_eq_of_curOff_eq ((curOff_cursorAt s s.extent).trans hcursor.symm)
    exact ⟨_, (exec_writeatAbs hgood hlen pos s).trans boundedWrite_zero, rfl, hbyte, hsub, rfl, rfl, fun _ _ => rfl⟩
  case inr =>
    obtain ⟨t, hexec, hdone⟩ :=
      exec_writeatAbs_done hinv.canonical hgood hlen hpos (hinside.trans hinv.extent_le_cap)
    have hextent := hdone.window.extent
    have hlenBytes := hdone.window.lenBytes
    have hend := hdone.cursor
    have hlength := hinv.extentLeLen
    unfold ceil8 at hlenBytes
    rw [Nat.max_eq_left hinside] at hextent hend
    obtain ⟨hbyte, hsub⟩ := cursor_eq_of_curOff_eq (hend.trans hcursor.symm)
    exact ⟨t, hexec, hdone.responses, hbyte, hsub, BitVec.eq_of_toNat_eq hextent,
      BitVec.eq_of_toNat_eq (by omega), hdone.window.outside⟩

end Sys2Proof.Machine
end

section
/-! PROOFS. The typed-read family (spec/44_typed_read.md): value, cursor and fault of RDU8, RDU16 and RDU32 (R186 to R189),
and their agreement with READN and with a positioned write (R190). -/

namespace Sys2Proof.Machine

/-! ### A range as a number -/

/-- The number a range denotes is the weighted sum of its bits (R9, R186). -/
theorem IsRange.val_eq {pos n : Nat} {s : State} {R : BitString} (h : IsRange pos n s R) :
    val R = rangeValue pos n s :=
  (congrArg val h).trans (val_range_map _ n)

theorem rangeValue_lt (pos w : Nat) (s : State) : rangeValue pos w s < 2 ^ w := by
  have hrange : IsRange pos w s ((List.range w).map fun i => bitRead (pos + i) s) := rfl
  have hlt := val_lt ((List.range w).map fun i => bitRead (pos + i) s)
  rwa [hrange.val_eq, List.length_map, List.length_range] at hlt

/-- A pattern that carries a number in exactly its bits is written as the number's bit-string (R9, R132). -/
theorem map_writtenSymbol_setWidth {plen : BitVec 7} (hplen : plen.toNat ≤ 32) (v : Word) :
    (List.range plen.toNat).map (writtenSymbol ⟨plen, v.setWidth 64⟩ plen.toNat) = bitsOf plen.toNat v.toNat := by
  refine List.map_congr_left fun i hi => ?_
  have hi := List.mem_range.1 hi
  have hbelow : plen.toNat - 1 - i < plen.toNat := by omega
  have hwide : plen.toNat - 1 - i < 64 := by omega
  simp [writtenSymbol, hbelow, hwide, BitVec.testBit_toNat]

/-! ### The cases of a typed read -/

/-- The offset a typed read starts at: its position, or the cursor's (R186). -/
def typedStart (pos : Option Word) (s : State) : Nat :=
  match pos with
  | some a => a.toNat
  | none => curOff s

/-- The state a typed read that completes leaves, its response apart: the cursor at the position if one was given (R186). -/
def typedDone (pos : Option Word) (s : State) : State :=
  match pos with
  | some a => cursorAt a s
  | none => s

/-- States with different last responses are different. -/
theorem response_eq_of_responded_eq {r r' : Response} {t t' : State} (h : responded r t = responded r' t') : r = r' :=
  List.singleton_inj.1 (List.append_inj' (congrArg State.responses h) rfl).2

section
variable {s : State} (hext : s.extent.toNat ≤ capBits s.params) (htyped : s.params.hasTyped = true)
  {w : Nat} {pos : Option Word}
include hext htyped

/-- Where the row exists and every readable bit does, the number of bits left decides (R186, R218). -/
theorem typedRead_present_cases :
    (s.extent.toNat < typedStart pos s + w ∧
      typedRead w pos s = .next (responded (faultResponse .insufficientData) s)) ∨
    (typedStart pos s + w ≤ s.extent.toNat ∧
      typedRead w pos s =
        .next (responded (okResponse (BitVec.ofNat 32 (rangeValue (typedStart pos s) w s))) (typedDone pos s))) := by
  obtain ⟨habsent, -⟩ | ⟨-, hfew⟩ | ⟨-, henough, heq⟩ := typedRead_cases (w := w) pos hext
  · rw [htyped] at habsent
    cases habsent
  · exact .inl (by cases pos <;> exact hfew)
  · refine .inr ?_
    cases pos with
    | none => exact ⟨henough, heq⟩
    | some a =>
      dsimp only at heq
      rw [setCursor_split_toNat] at heq
      exact ⟨henough, heq⟩

/-- With fewer than `w` bits left a typed read faults (R186, R218). -/
theorem typedRead_insufficient (hfew : s.extent.toNat < typedStart pos s + w) :
    typedRead w pos s = .next (responded (faultResponse .insufficientData) s) := by
  obtain ⟨-, heq⟩ | ⟨henough, -⟩ := typedRead_present_cases hext htyped (w := w) (pos := pos)
  · exact heq
  · omega

section
variable (hw : w ≤ 32)
include hw

/-- With `w` bits left it answers their value, which `RVAL` holds whole (R186). -/
theorem typedRead_answered (henough : typedStart pos s + w ≤ s.extent.toNat) :
    ∃ v : Word, typedRead w pos s = .next (responded (okResponse v) (typedDone pos s)) ∧
      v.toNat = rangeValue (typedStart pos s) w s := by
  obtain ⟨hfew, -⟩ | ⟨-, heq⟩ := typedRead_present_cases hext htyped (w := w) (pos := pos)
  · omega
  · have hlt : rangeValue (typedStart pos s) w s < 2 ^ 32 :=
      (rangeValue_lt _ w s).trans_le (Nat.pow_le_pow_right (by decide) hw)
    exact ⟨_, heq, by rw [BitVec.toNat_ofNat, Nat.mod_eq_of_lt hlt]⟩

/-- A typed read that completes had its bits, and answered their value (R186). -/
theorem typedRead_completed {v : Word} {t : State} (h : typedRead w pos s = .next (responded (okResponse v) t)) :
    typedStart pos s + w ≤ s.extent.toNat ∧ v.toNat = rangeValue (typedStart pos s) w s := by
  obtain hfew | henough := Nat.lt_or_ge s.extent.toNat (typedStart pos s + w)
  · rw [typedRead_insufficient hext htyped hfew] at h
    injection h with hstate
    exact absurd (response_eq_of_responded_eq hstate) (faultResponse_ne_okResponse _ v)
  · obtain ⟨v', heq, hvalue⟩ := typedRead_answered hext htyped hw henough
    rw [heq] at h
    injection h with hstate
    obtain rfl : v' = v := congrArg Response.rval (response_eq_of_responded_eq hstate)
    exact ⟨henough, hvalue⟩

end

end

/-- Settles O48: the three commands are one typed read at three widths, and the number of bits left decides its case. -/
theorem typedReadsFollowTheirRule : Obligations.TypedReadsFollowTheirRule := by
  intro s pos p s' htyped hext htarget
  obtain ⟨rfl, rfl⟩ : p = typedStart pos s ∧ s' = typedDone pos s := by cases pos <;> exact htarget
  have answers {w : Nat} (hw : w ≤ 32) (henough : typedStart pos s + w ≤ s.extent.toNat) :
      ∃ v : Word, typedRead w pos s = .next (responded (okResponse v) (typedDone pos s)) ∧
        v.toNat = rangeValue (typedStart pos s) w s ∧ v.toNat ≤ 2 ^ w - 1 := by
    obtain ⟨v, heq, hvalue⟩ := typedRead_answered hext htyped hw henough
    exact ⟨v, heq, hvalue, hvalue ▸ Nat.le_sub_one_of_lt (rangeValue_lt _ w s)⟩
  exact ⟨answers (by decide), answers (by decide), typedRead_answered hext htyped le_rfl,
    typedRead_insufficient hext htyped, typedRead_insufficient hext htyped, typedRead_insufficient hext htyped⟩

/-! ### Agreement with READN and with a positioned write -/

section
variable {s : State} (htyped : s.params.hasTyped = true) (hinv : s.Inv) {a v : Word}
include htyped hinv

/-- READN over the bits of a typed read that completes answers them unclipped, so they denote its value (R190, R156). -/
theorem exec_readn_of_typedRead {len : Word} {w : Nat} {t : State} (hlen : len.toNat = w) (hw : w ≤ 32)
    (h : typedRead w (some a) s = .next (responded (okResponse v) t)) :
    ∃ u r, exec (.readn a len) s = .next u ∧ u.responses = s.responses ++ [r] ∧ val r.bits = v.toNat := by
  obtain ⟨(henough : a.toNat + w ≤ s.extent.toNat), hvalue⟩ :=
    typedRead_completed hinv.extent_le_cap htyped hw h
  obtain ⟨r, hread, hrange⟩ :=
    exec_readn_answered (pos := a) (len := len) hinv.extent_le_cap (BitVec.toInt_pos_iff.2 (by omega))
  rw [hlen, Nat.min_eq_left henough, Nat.add_sub_cancel_left] at hrange
  exact ⟨_, r, hread, rfl, hrange.bits.val_eq.trans hvalue.symm⟩

/-- The written window is the number's bit-string and raises `EXTENT` to its end, so a typed read of it completes with the
number (R190, R171). -/
theorem typedRead_after_writeatAbs {plen : BitVec 7} (hpos : 1 ≤ plen.toNat) (hplen : plen.toNat ≤ 32)
    (hv : v.toNat < 2 ^ plen.toNat) (hfits : a.toNat + plen.toNat ≤ capBits s.params) :
    ∃ t u, exec (.writeatAbs a none .rawBitPattern ⟨plen, v.setWidth 64⟩) s = .next t ∧
      typedRead plen.toNat (some a) t = .next (responded (okResponse v) u) := by
  have hgood : GoodSource .rawBitPattern ⟨plen, v.setWidth 64⟩ := ⟨.inl rfl, hplen.trans (by decide)⟩
  obtain ⟨t, hexec, hdone⟩ := exec_writeatAbs_done (len := none) hinv.canonical hgood rfl hpos hfits
  have hwindow := hdone.window
  have htyped' : t.params.hasTyped = true := hwindow.params.symm ▸ htyped
  have hext := ((exec_effect hexec).inv hinv).extent_le_cap
  have henough : a.toNat + plen.toNat ≤ t.extent.toNat := hwindow.extent ▸ Nat.le_max_right _ _
  obtain ⟨v', hread, hvalue⟩ := typedRead_answered (pos := some a) hext htyped' hplen henough
  have hnumber : v'.toNat = v.toNat := calc
    v'.toNat = rangeValue a.toNat plen.toNat t := hvalue
    _ = val ((List.range plen.toNat).map (writtenSymbol ⟨plen, v.setWidth 64⟩ plen.toNat)) :=
      hwindow.isRange.val_eq.symm
    _ = val (bitsOf plen.toNat v.toNat) := congrArg val (map_writtenSymbol_setWidth hplen v)
    _ = v.toNat := val_bitsOf hv
  obtain rfl := BitVec.eq_of_toNat_eq hnumber
  exact ⟨t, _, hexec, hread⟩

end

/-- Settles O50: for each width, READN over the same bits and the write of the same bits. -/
theorem typedReadsAgreeWithReadnAndWrites : Obligations.TypedReadsAgreeWithReadnAndWrites := by
  intro s a v htyped hinv
  refine ⟨fun _ => ?readn8, fun _ => ?readn16, fun _ => ?readn32, ?write8, ?write16, ?write32⟩
  case readn8 => exact exec_readn_of_typedRead htyped hinv rfl (by decide)
  case readn16 => exact exec_readn_of_typedRead htyped hinv rfl (by decide)
  case readn32 => exact exec_readn_of_typedRead htyped hinv rfl (by decide)
  case write8 => exact typedRead_after_writeatAbs (plen := 8) htyped hinv (by decide) (by decide)
  case write16 => exact typedRead_after_writeatAbs (plen := 16) htyped hinv (by decide) (by decide)
  case write32 => exact typedRead_after_writeatAbs (plen := 32) htyped hinv (by decide) (by decide) v.isLt

end Sys2Proof.Machine
end

section
/-! PROOFS. Construction (spec/45_system.md R200 to R202): INIT refused above `CAP_BITS`, and the buffer it constructs
otherwise, in both values of `INIT_EXTENT_MODE`. -/

namespace Sys2Proof.Machine

/-- R201, `INIT_EXTENT_MODE` = ROUNDED: every bit of the bytes constructed. -/
theorem initExtent_rounded {p : Params} (hmode : p.initExtentMode = .rounded) (n : Nat) :
    initExtent p n = 8 * ceil8 n := by
  simp [initExtent, hmode]

/-- R201, `INIT_EXTENT_MODE` = ZERO. -/
theorem initExtent_zero {p : Params} (hmode : p.initExtentMode = .zero) (n : Nat) : initExtent p n = 0 := by
  simp [initExtent, hmode]

/-- A length above `CAP_BITS` is refused (R202). -/
theorem exec_init_full {n : Word} {s : State} (hfull : capBits s.params < n.toNat) (e : Endian) :
    exec (.init e n) s = .next (responded (faultResponse .capacityExceeded) s) :=
  if_pos hfull

section
variable {n : Word} {s : State} (hfits : n.toNat ≤ capBits s.params) (e : Endian)
include hfits

/-- A length that fits: INIT completes (R200). -/
theorem exec_init_fits : exec (.init e n) s = .next (responded (okResponse 0) (constructed e n s)) :=
  if_neg (Nat.not_lt.2 hfits)

/-- The bytes of a length that fits are below the width of `LEN_BYTES` (R6, R28). -/
theorem ceil8_lt_of_fits : ceil8 n.toNat < 2 ^ 29 := by
  have hcap := s.params.capBytes.isLt
  unfold capBits at hfits
  unfold ceil8
  omega

/-- `LEN_BYTES` holds the rounded length whole (R200). -/
theorem constructed_lenBytes : (constructed e n s).lenBytes.toNat = ceil8 n.toNat := by
  have hceil := ceil8_lt_of_fits hfits
  exact Nat.mod_eq_of_lt (by omega)

/-- `EXTENT` holds what the mode asks for whole (R200, R201). -/
theorem constructed_extent : (constructed e n s).extent.toNat = initExtent s.params n.toNat := by
  have hceil := ceil8_lt_of_fits hfits
  refine Nat.mod_eq_of_lt ?_
  cases hmode : s.params.initExtentMode with
  | rounded =>
    rw [initExtent_rounded hmode]
    omega
  | zero =>
    rw [initExtent_zero hmode]
    decide

end

/-- Settles O51: the capacity decides; the registers constructed hold their values without truncation. -/
theorem initConstructsAnEmptyBuffer : Obligations.InitConstructsAnEmptyBuffer := by
  intro s e n
  refine ⟨fun hfits => ?fits, fun hfull => exec_init_full hfull e⟩
  have hextent := constructed_extent hfits e
  exact ⟨_, exec_init_fits hfits e, memRead_of_storage_nil rfl, rfl, constructed_lenBytes hfits e,
    fun hmode => hextent.trans (initExtent_rounded hmode _), fun hmode => hextent.trans (initExtent_zero hmode _),
    rfl, rfl, rfl, rfl, rfl, rfl⟩

end Sys2Proof.Machine
end

section
/-! PROOFS. The exceptions family (spec/60_exceptions.md): one step takes one command (R230), a command that faults changes
nothing but its response (R210, R212, R213), and no state that meets the invariants is without a next one. -/

namespace Sys2Proof.Machine

/-! ### What a command answers -/

/-- The parameters, the inputs still to come and the record of responses are the same: the fields the block's own state
(R15) leaves. -/
structure SamePorts (s t : State) : Prop where
  params : t.params = s.params
  inputs : t.inputs = s.inputs
  responses : t.responses = s.responses

theorem SamePorts.refl (s : State) : SamePorts s s := ⟨rfl, rfl, rfl⟩

theorem SamePorts.setCursor {s t : State} (h : SamePorts s t) (cursor : Nat × Nat) :
    SamePorts s (setCursor cursor t) :=
  ⟨h.params, h.inputs, h.responses⟩

/-- A window write reaches storage, `LEN_BYTES` and `EXTENT` only (R133, R138). -/
theorem writeWindow_samePorts (b sub L : Nat) (pat : Pattern) (s : State) :
    SamePorts s (writeWindow b sub L pat s).2 := by
  obtain ⟨-, -, -, -, hparams, hinputs, hresp⟩ := writerCore_frame L b sub (rightAlign L (symbolsOf pat)) s
  exact ⟨hparams, hinputs, hresp⟩

/-- INIT constructs the block's own state (R200). -/
theorem constructed_samePorts (e : Endian) (n : Word) (s : State) : SamePorts s (constructed e n s) :=
  ⟨rfl, rfl, rfl⟩

/-- Every answer a command has. `CommandEffect` says what a next state does to the block; this says how the answer looks on
the ports, and when there is no next state. -/
inductive CommandAnswer (s : State) : Result → Prop where
  /-- a fault: its response and nothing else (R212, R213) -/
  | faulted (f : FaultCode) : CommandAnswer s (.next (responded (faultResponse f) s))
  /-- a completion: one response, with `STATUS` = 0 (R70) -/
  | completed (r : Response) (t : State) (status : r.status = 0) (ports : SamePorts s t) :
      CommandAnswer s (.next (responded r t))
  /-- a read of a byte that does not exist, in a state R25 excludes (R12; log entry 6) -/
  | stopped (f : Fault) (extentAboveCap : capBits s.params < s.extent.toNat) : CommandAnswer s (.fault f)

section
variable {s : State}

/-- A check that raises: the fault, or what follows the check. -/
theorem CommandAnswer.of_guard {c : Prop} [Decidable c] {f : FaultCode} {r : Result} (hr : CommandAnswer s r) :
    CommandAnswer s (if c then raise f s else r) := by
  split
  · exact .faulted f
  · exact hr

/-- `respond(v)` (R12). -/
theorem CommandAnswer.of_respond {t : State} (h : SamePorts s t) (v : Nat) : CommandAnswer s (respond v t) :=
  .completed _ t rfl h

/-- The same after moving the cursor only. -/
theorem CommandAnswer.of_respond_setCursor (v : Nat) (cursor : Nat × Nat) :
    CommandAnswer s (respond v (setCursor cursor s)) :=
  .of_respond ((SamePorts.refl s).setCursor cursor) v

/-- A read stops only with `EXTENT` above `CAP_BITS`. -/
theorem capBits_lt_of_readRange_error {pos req : Nat} {f : Fault} (h : readRange pos req s = .error f) :
    capBits s.params < s.extent.toNat := by
  refine Nat.lt_of_not_le fun hext => ?_
  rw [readRange_ok hext] at h
  cases h

/-- The end of READ, READFROM and READN. -/
theorem CommandAnswer.of_answerRange {t : State} (h : SamePorts s t) (pos req : Nat) :
    CommandAnswer s (answerRange pos req s t) := by
  unfold answerRange
  split
  · exact .completed _ t rfl h
  · exact .stopped _ (capBits_lt_of_readRange_error ‹_›)

/-- A typed read (R186). -/
theorem CommandAnswer.of_typedRead (w : Nat) (pos : Option Word) : CommandAnswer s (typedRead w pos s) := by
  refine .of_guard (.of_guard ?_)
  split
  · exact .stopped _ (capBits_lt_of_readRange_error ‹_›)
  · cases pos with
    | none => exact .of_respond (.refl s) _
    | some a => exact .of_respond_setCursor _ _

/-- The end of a positioned write (R170). -/
theorem CommandAnswer.of_boundedWrite (b sub L : Nat) (pat : Pattern) : CommandAnswer s (boundedWrite b sub L pat s) := by
  obtain ⟨-, -, heq⟩ | ⟨-, heq⟩ | ⟨-, -, heq⟩ := boundedWrite_cases b sub L pat s <;> rw [heq]
  · exact .faulted _
  · exact .of_respond_setCursor 0 _
  · exact .of_respond ((writeWindow_samePorts b sub L pat s).setCursor _) 0

/-- WRITE (R143). -/
theorem CommandAnswer.of_execWrite (len : Option Word) (src : SourceTag) (pat : Pattern) :
    CommandAnswer s (execWrite len src pat s) := by
  refine .of_guard ?_
  dsimp only
  split
  · exact .of_respond (.refl s) 0
  · exact .of_guard (.of_respond ((writeWindow_samePorts _ _ _ pat s).setCursor _) 0)

end

/-- No command is refused, and none answers in a fourth way. -/
theorem exec_answer (i : Instr) (s : State) : CommandAnswer s (exec i s) := by
  cases i with
  | init e n => exact .of_guard (.of_respond (constructed_samePorts e n s) 0)
  | getoff => exact .of_respond (.refl s) _
  | setabs off => exact .of_respond_setCursor 0 _
  | setpair byte sub => exact .of_guard (.of_respond_setCursor 0 _)
  | mvstart => exact .of_respond_setCursor 0 _
  | mvend => exact .of_respond_setCursor 0 _
  | advbyte => exact .of_guard (.of_respond_setCursor 0 _)
  | write len src pat => exact .of_execWrite len src pat
  | writeatAbs pos len src pat => exact .of_guard (.of_boundedWrite _ _ _ pat)
  | writeatPair byte sub len src pat => exact .of_guard (.of_guard (.of_boundedWrite _ _ _ pat))
  | writerange start stop src pat => exact .of_guard (.of_boundedWrite _ _ _ pat)
  | read => exact .of_answerRange (.refl s) _ _
  | readfrom pos => exact .of_answerRange ((SamePorts.refl s).setCursor _) _ _
  | readn pos len => exact .of_guard (.of_answerRange ((SamePorts.refl s).setCursor _) _ _)
  | rdu8 pos => exact .of_typedRead 8 pos
  | rdu16 pos => exact .of_typedRead 16 pos
  | rdu32 pos => exact .of_typedRead 32 pos

/-! ### What a step answers -/

/-- Settles O2: the step takes the command, decodes it and runs it. -/
theorem stepRunsDecodedCommand : Obligations.StepRunsDecodedCommand := by
  intro s c rest i hinputs hdecode
  simp only [step, takeInput, hinputs, hdecode]

/-- A step at a command answers as a command does in the state with the command taken, decoded or not (R77, R230). -/
theorem step_command_answer {s : State} {c : Command} {rest : List Input} (hinputs : s.inputs = .command c :: rest) :
    CommandAnswer { s with inputs := rest } (step s) := by
  cases hdecode : decode s.params c with
  | error e =>
    rw [stepRejectsUndecodableCommand s c rest e hinputs hdecode]
    exact .faulted .illegalCommand
  | ok i =>
    rw [stepRunsDecodedCommand s c rest i hinputs hdecode]
    exact exec_answer i _

/-- Only a stop has no next state, and the invariants hold `EXTENT` at or below `CAP_BITS` (R25). -/
theorem CommandAnswer.next_of_inv {s : State} {r : Result} (h : CommandAnswer s r) (hinv : s.Inv) : ∃ t, r = .next t := by
  cases h with
  | faulted f => exact ⟨_, rfl⟩
  | completed r t _ _ => exact ⟨_, rfl⟩
  | stopped f habove => exact absurd hinv.extent_le_cap (Nat.not_le.2 habove)

/-- Settles O5: nothing presented and `RST` always have a next state, and a command has one under the invariants. -/
theorem stepAlwaysAnswers : Obligations.StepAlwaysAnswers := by
  intro s hinv
  match hinputs : s.inputs with
  | [] => exact ⟨_, by simp only [step, takeInput, hinputs]; rfl⟩
  | .rst :: rest => exact ⟨_, by simp only [step, takeInput, hinputs]; rfl⟩
  | .command c :: rest => exact (step_command_answer hinputs).next_of_inv (hinv.of_same rfl rfl rfl rfl)

/-- R210: no fault has a code above 6. -/
theorem FaultCode.code_le (f : FaultCode) : f.code.toNat ≤ 6 := by
  cases f <;> decide

/-- Settles O6: a fault adds its response to the state with the command taken; a completion has `STATUS` = 0. -/
theorem everyCommandAnswersOnceAndFaultsChangeNothing :
    Obligations.EveryCommandAnswersOnceAndFaultsChangeNothing := by
  intro s t c rest hinputs hstep
  have hanswer := step_command_answer hinputs
  rw [hstep] at hanswer
  cases hanswer with
  | faulted f => exact ⟨faultResponse f, rfl, f.code_le, rfl, rfl, fun _ => ⟨rfl, rfl, rfl⟩⟩
  | completed r u hstatus hports =>
    refine ⟨r, congrArg (· ++ [r]) hports.responses, ?_, hports.inputs, hports.params, fun hfault => ?_⟩
    · rw [hstatus]
      decide
    · exact absurd hstatus hfault

end Sys2Proof.Machine
end

section
/-! PROOFS. The reset and hazards family (spec/70_reset_and_hazards.md): `RST` and the idle step (R240, R245), INIT 0, BE as a
reset (R241), the choice of `ENDIAN` (R243), and reads that stay where writes advance (R247). -/

namespace Sys2Proof.Machine

/-! ### Reset -/

/-- The state after `RST` (R240, R36): the block's own state at its reset values, the rest as it was. -/
def resetBlock (s : State) : State :=
  { State.reset with params := s.params, inputs := s.inputs, responses := s.responses }

section
variable (s : State)

theorem applyRst_eq : applyRst s = .next (resetBlock s) := rfl

theorem resetBlock_sameBlock : SameBlock State.reset (resetBlock s) := ⟨rfl, rfl, rfl, rfl, rfl, rfl⟩

/-- A buffer of no bits has `EXTENT` = 0 in both modes (R201). -/
theorem initExtent_of_no_bits (p : Params) : initExtent p 0 = 0 := by
  cases hmode : p.initExtentMode with
  | rounded => exact initExtent_rounded hmode 0
  | zero => exact initExtent_zero hmode 0

/-- R241: the big-endian buffer of no bits is the reset state. -/
theorem constructed_big_zero : constructed .big 0 s = resetBlock s := by
  have hextent : initExtent s.params (0 : Word).toNat = 0 := initExtent_of_no_bits s.params
  unfold constructed
  rw [hextent]
  rfl

/-- INIT 0, BE resets the block and answers (R241, R200). -/
theorem exec_init_big_zero : exec (.init .big 0) s = .next (responded (okResponse 0) (resetBlock s)) := by
  rw [exec_init_fits (Nat.zero_le _), constructed_big_zero]

end

/-- Settles O4: `RST` is taken and resets the block; nothing presented is the idle step. -/
theorem stepOnResetAndOnNothing : Obligations.StepOnResetAndOnNothing := by
  refine ⟨fun s rest hinputs => ⟨resetBlock { s with inputs := rest }, ?rst, resetBlock_sameBlock _, rfl, rfl, rfl⟩,
    fun s hinputs => ?nothing⟩
  case rst =>
    simp only [step, takeInput, hinputs]
    exact applyRst_eq _
  case nothing =>
    simp only [step, takeInput, hinputs]
    rfl

/-- Settles O52: INIT 0, BE leaves the state that `RST` leaves, its response apart. -/
theorem initZeroEqualsReset : Obligations.InitZeroEqualsReset :=
  fun s => ⟨_, exec_init_big_zero s, resetBlock_sameBlock s, _, applyRst_eq s, ⟨rfl, rfl, rfl, rfl, rfl, rfl⟩⟩

/-! ### The choice of `ENDIAN` -/

/-- A window write does not touch `ENDIAN` (R42), in every state, canonical or not. -/
theorem writeWindow_endian (b sub L : Nat) (pat : Pattern) (s : State) :
    (writeWindow b sub L pat s).2.endian = s.endian := by
  obtain ⟨-, -, -, hendian, -⟩ := writerCore_frame L b sub (rightAlign L (symbolsOf pat)) s
  exact hendian

/-- Only INIT has an effect on `ENDIAN` (R243). -/
theorem CommandEffect.endian {i : Instr} {s t : State} (h : CommandEffect i s t) (hinit : isInit i = false) :
    t.endian = s.endian := by
  cases h with
  | faulted f => rfl
  | moved r cursor _ => rfl
  | written b sub L pat cursor _ _ _ _ => exact writeWindow_endian b sub L pat s
  | constructed e n hi _ =>
    subst hi
    cases hinit

/-- Settles O10: by the effects of a command; an INIT that completes has constructed an empty buffer with its flag. -/
theorem endianIsChosenOnlyByInit : Obligations.EndianIsChosenOnlyByInit := by
  refine ⟨fun i s t hinit hexec => (exec_effect hexec).endian hinit, fun e n s t hexec hresp => ?init⟩
  by_cases hfits : n.toNat ≤ capBits s.params
  case pos =>
    rw [exec_init_fits hfits] at hexec
    cases hexec
    exact ⟨rfl, memRead_of_storage_nil rfl⟩
  case neg =>
    rw [exec_init_full (Nat.lt_of_not_le hfits)] at hexec
    cases hexec
    exact absurd hresp (faulted_not_completed _ s)

/-! ### Two reads and two writes in a row -/

section
variable {s : State}

/-- READN with a length that is not negative, its response named (R156). -/
theorem exec_readn {len : Word} (hext : s.extent.toNat ≤ capBits s.params) (hlen : 0 ≤ len.toInt) (pos : Word) :
    exec (.readn pos len) s =
      .next (responded (rangeResponse pos.toNat (pos.toNat + len.toInt.toNat) s) (cursorAt pos s)) := by
  rw [← setCursor_split_toNat]
  exact (if_neg (Int.not_lt.2 hlen)).trans (answerRange_eq hext _ _ _)

/-- READN does not advance (R247): its response looks at storage and `EXTENT` only, and the cursor is at the position
already. -/
theorem exec_readn_again {pos len : Word} {t : State} (hext : s.extent.toNat ≤ capBits s.params)
    (h : exec (.readn pos len) s = .next t) :
    ∃ r, t.responses = s.responses ++ [r] ∧ exec (.readn pos len) t = .next (responded r t) := by
  by_cases hlen : 0 ≤ len.toInt
  case pos =>
    rw [exec_readn hext hlen] at h
    cases h
    exact ⟨_, rfl, exec_readn (s := responded _ (cursorAt pos s)) hext hlen pos⟩
  case neg =>
    have hneg := Int.not_le.1 hlen
    rw [exec_readn_negative s hneg] at h
    cases h
    exact ⟨_, rfl, exec_readn_negative _ hneg⟩

/-- A WRITE that fits completes as the statements say (R143). -/
theorem exec_write_done {src : SourceTag} {pat : Pattern} (hwf : s.storage.wf = true) (hgood : GoodSource src pat)
    (hpos : 1 ≤ pat.plen.toNat) (hfits : curOff s + pat.plen.toNat ≤ capBits s.params) :
    ∃ t, exec (.write none src pat) s = .next t ∧ t.storage.wf = true ∧
      WriteDone (curOff s) pat.plen.toNat pat (curOff s + pat.plen.toNat) s t :=
  ⟨_, exec_write_fits hgood rfl hpos hfits, written_wf hwf hpos hfits pat, written_done hwf hpos hfits pat⟩

end

/-- Settles O46: a repeated READN finds what the first one found; the second WRITE starts at the cursor the first one left,
its window's end. -/
theorem boundedReadsRepeatAndWritesAdvance : Obligations.BoundedReadsRepeatAndWritesAdvance := by
  refine ⟨fun s t pos len hext hexec => exec_readn_again hext hexec, ?write⟩
  intro s t src p q hwf hgoodp hgoodq hposp hposq hexec _ (hfits : curOff s + _ + _ ≤ capBits s.params)
  obtain ⟨t', hfirst, hwft, hdone⟩ := exec_write_done hwf hgoodp hposp (by omega)
  obtain rfl : t = t' := by simpa using hexec.symm.trans hfirst
  have hcursor := hdone.cursor
  have hparams := hdone.window.params
  obtain ⟨u, hsecond, -, hdone'⟩ := exec_write_done hwft hgoodq hposq (by rwa [hcursor, hparams])
  rw [hcursor] at hdone'
  exact ⟨u, hsecond, hdone'⟩

end Sys2Proof.Machine
end
